-- ==== Sys2Proof/Word.lean ====
section
/-! DEFINITION. The machine's value types, with the widths of 00_scope.md R4: 8-bit cells and registers,
16-bit words (PC, I, stack entries, instruction words), 12-bit addresses inside an instruction, and the
4-bit index of a general register or key line. -/

namespace Sys2Proof

/-- An 8-bit unsigned value: a memory cell, a general register, SP, DT, an immediate kk (R4, R21, R93). -/
abbrev Byte := BitVec 8

/-- A 16-bit unsigned value: PC, I, a stack entry, an instruction word (R4, R24, R27, R90). -/
abbrev Word := BitVec 16

/-- The 12-bit absolute address nnn of a format A instruction (R93). -/
abbrev Addr := BitVec 12

/-- The index of a general register, V0 to VF (R21); an index into sixteen like things is a bounded number. -/
abbrev Reg := Fin 16

end Sys2Proof
end

