-- ==== Sys2Proof/Syntax.lean ====
section
/-! DEFINITION. The instruction set as syntax: the nine rows of spec/opcode_table.json (30_encoding.md R95), one
constructor each. The operand types have exactly the widths of R93, so every term of Instr is an instruction of
the machine; the checks on operands written as numbers are in WellFormed.lean. -/

namespace Sys2Proof

/-- The nine instructions of this hardware (R1, R95, R210). -/
inductive Instr where
  /-- CLS, 00E0: clear the display (R140). -/
  | cls
  /-- RET, 00EE: return from subroutine (R150). -/
  | ret
  /-- JP addr, 1nnn: jump (R151). -/
  | jp (nnn : Addr)
  /-- CALL addr, 2nnn: call subroutine (R152). -/
  | call (nnn : Addr)
  /-- SE Vx,kk, 3xkk: skip if equal to immediate (R170). -/
  | seImm (x : Reg) (kk : Byte)
  /-- SNE Vx,kk, 4xkk: skip if not equal to immediate (R171). -/
  | sneImm (x : Reg) (kk : Byte)
  /-- SE Vx,Vy, 5xy0: skip if registers equal (R172). -/
  | seReg (x y : Reg)
  /-- LD Vx,kk, 6xkk: load immediate (R190). -/
  | ldImm (x : Reg) (kk : Byte)
  /-- ADD Vx,kk, 7xkk: add immediate modulo 256 (R191). -/
  | addImm (x : Reg) (kk : Byte)
  deriving DecidableEq, Repr

end Sys2Proof
end

