-- ==== Sys2Proof/WellFormed.lean ====
section
/-! DEFINITION. Which written lines are instructions: the operand ranges of 30_encoding.md R100 and R101. A line
as a programmer writes it has operands that are just numbers; `AsmLine.wellFormed` checks each of them, and
`AsmLine.instr?` gives the instruction of a line that passes. A term of `Instr` carries these bounds in its types
(R93: every register index is legal, no immediate is signed), so it needs no further check. -/

namespace Sys2Proof

/-- The second operand of SE, which tells the two SE instructions apart: a register or a number (R100). -/
inductive AsmOperand where
  | reg (n : Nat)
  | num (n : Nat)
  deriving DecidableEq, Repr

/-- A line of the spec's assembly, operands unchecked (R100), and the spec's own directive DW (R101). -/
inductive AsmLine where
  | cls
  | ret
  | jp (addr : Nat)
  | call (addr : Nat)
  | se (x : Nat) (second : AsmOperand)
  | sne (x kk : Nat)
  | ld (x kk : Nat)
  | add (x kk : Nat)
  /-- `DW 0xNNNN`: two bytes of data, high byte first; not an instruction (R101). -/
  | dw (value : Nat)
  deriving DecidableEq, Repr

/-- A register operand is one of V0 to VF (R100). -/
def isReg (n : Nat) : Bool := decide (n ≤ 0xF)

/-- An immediate is an 8-bit value, 0 to 255 (R100). -/
def isImmediate (n : Nat) : Bool := decide (n ≤ 0xFF)

/-- An address is a 12-bit address, 0x000 to 0xFFF (R100). -/
def isAddress (n : Nat) : Bool := decide (n ≤ 0xFFF)

/-- Every operand of the line is in the range R100 (for DW, R101) gives it. -/
def AsmLine.wellFormed : AsmLine → Bool
  | .cls => true
  | .ret => true
  | .jp addr => isAddress addr
  | .call addr => isAddress addr
  | .se x (.num kk) => isReg x && isImmediate kk
  | .se x (.reg y) => isReg x && isReg y
  | .sne x kk => isReg x && isImmediate kk
  | .ld x kk => isReg x && isImmediate kk
  | .add x kk => isReg x && isImmediate kk
  | .dw value => decide (value ≤ 0xFFFF)

/-- The register a checked register operand names. -/
def regOf (n : Nat) : Reg := Fin.ofNat 16 n

/-- The instruction a well-formed line names; none for an ill-formed line and for DW, which names none. -/
def AsmLine.instr? (line : AsmLine) : Option Instr :=
  if line.wellFormed then
    match line with
    | .cls => some .cls
    | .ret => some .ret
    | .jp addr => some (.jp (BitVec.ofNat 12 addr))
    | .call addr => some (.call (BitVec.ofNat 12 addr))
    | .se x (.num kk) => some (.seImm (regOf x) (BitVec.ofNat 8 kk))
    | .se x (.reg y) => some (.seReg (regOf x) (regOf y))
    | .sne x kk => some (.sneImm (regOf x) (BitVec.ofNat 8 kk))
    | .ld x kk => some (.ldImm (regOf x) (BitVec.ofNat 8 kk))
    | .add x kk => some (.addImm (regOf x) (BitVec.ofNat 8 kk))
    | .dw _ => none
  else none

end Sys2Proof
end

