-- ==== Sys2Proof/Decode.lean ====
section
/-! DEFINITION. From bits to instructions and back: the fields of an instruction word (00_scope.md R5, 30_encoding.md
R92, R93), the dispatch tree (R94), the opcode map (R95), byte order (20_memory.md R64), and the encoder written
from the same formats. Every word that spells none of the nine instructions is rejected (R96, R97). -/

namespace Sys2Proof

/-! ## Bytes and words -/

/-- The word whose high byte stands first in memory (R64). -/
def joinBytes (hi lo : Byte) : Word := hi ++ lo

/-- `w[15:8]`, the byte at the lower address (R64). -/
def highByte (w : Word) : Byte := w.extractLsb' 8 8

/-- `w[7:0]`, the byte at the higher address (R64). -/
def lowByte (w : Word) : Byte := w.extractLsb' 0 8

/-! ## The fields of an instruction word -/

/-- `n3 = w[15:12]`, the dispatch family (R5, R91). -/
def familyField (w : Word) : BitVec 4 := w.extractLsb' 12 4

/-- `x = w[11:8]`, an unsigned register index (R93). -/
def xField (w : Word) : Reg := (w.extractLsb' 8 4).toFin

/-- `y = w[7:4]`, an unsigned register index (R93). -/
def yField (w : Word) : Reg := (w.extractLsb' 4 4).toFin

/-- `n0 = w[3:0]`, the low nibble, which disambiguates family 5 (R5, R94). -/
def lowNibble (w : Word) : BitVec 4 := w.extractLsb' 0 4

/-- `kk = w[7:0]`, an unsigned 8-bit immediate (R93). -/
def kkField (w : Word) : Byte := w.extractLsb' 0 8

/-- `nnn = w[11:0]`, an unsigned 12-bit address (R93). -/
def nnnField (w : Word) : Addr := w.extractLsb' 0 12

/-! ## Decoding -/

/-- The dispatch tree of R94; `none` is its Unknown. -/
def decode (w : Word) : Option Instr :=
  match (familyField w).toNat with
  | 0x0 => if w = 0x00E0 then some .cls else if w = 0x00EE then some .ret else none
  | 0x1 => some (.jp (nnnField w))
  | 0x2 => some (.call (nnnField w))
  | 0x3 => some (.seImm (xField w) (kkField w))
  | 0x4 => some (.sneImm (xField w) (kkField w))
  | 0x5 => if lowNibble w = 0 then some (.seReg (xField w) (yField w)) else none
  | 0x6 => some (.ldImm (xField w) (kkField w))
  | 0x7 => some (.addImm (xField w) (kkField w))
  | _ => none

/-- What a sequence of bytes spells at its front. -/
inductive Decoded where
  /-- An instruction, and the bytes after its two. -/
  | instr (i : Instr) (rest : List Byte)
  /-- Two bytes that spell none of the nine instructions (R97). -/
  | unknownOpcode (w : Word)
  /-- Fewer than two bytes: no instruction word can be assembled (R90). -/
  | truncated
  deriving DecidableEq, Repr

/-- Decoding bytes: the word is assembled big-endian from the first two (R64, R90), whatever the rest holds. -/
def decodeBytes : List Byte → Decoded
  | hi :: lo :: rest =>
    match decode (joinBytes hi lo) with
    | some i => .instr i rest
    | none => .unknownOpcode (joinBytes hi lo)
  | _ => .truncated

/-- The instruction read from a row of spec/opcode_table.json: the row's bits, one 16-bit word, laid out high byte
first as the hardware stores them. None where the decoder refuses, or where the bits are more than one word. -/
def decodeTableWord (nbits w : Nat) : Option Instr :=
  if w % 2 ^ nbits < 0x10000 then
    match decodeBytes [BitVec.ofNat 8 (w % 2 ^ nbits / 256), BitVec.ofNat 8 (w % 2 ^ nbits)] with
    | .instr i _ => some i
    | .unknownOpcode _ => none
    | .truncated => none
  else none

/-! ## Encoding -/

/-- The four bits that hold a register index (R92). -/
def regBits (r : Reg) : BitVec 4 := BitVec.ofFin r

/-- The one word of an instruction, by the formats Z, A, XK and XY of R92 and the opcodes of R95. -/
def encode : Instr → Word
  | .cls => 0x00E0
  | .ret => 0x00EE
  | .jp nnn => 0x1#4 ++ nnn
  | .call nnn => 0x2#4 ++ nnn
  | .seImm x kk => 0x3#4 ++ regBits x ++ kk
  | .sneImm x kk => 0x4#4 ++ regBits x ++ kk
  | .seReg x y => 0x5#4 ++ regBits x ++ regBits y ++ 0x0#4
  | .ldImm x kk => 0x6#4 ++ regBits x ++ kk
  | .addImm x kk => 0x7#4 ++ regBits x ++ kk

/-- The two bytes of an instruction in memory order (R64, R90). -/
def encodeBytes (i : Instr) : List Byte := [highByte (encode i), lowByte (encode i)]

/-- The word a well-formed line of assembly places in memory, DW included (R100, R101). -/
def AsmLine.word? (line : AsmLine) : Option Word :=
  match line with
  | .dw value => if line.wellFormed then some (BitVec.ofNat 16 value) else none
  | _ => line.instr?.map encode

/-! ## The opcode map as data -/

/-- A row of the opcode map: a word w is the row's instruction exactly when `w AND mask = pattern` (R95; the spec
calls the pattern's value `match`). -/
structure OpcodeRow where
  mnemonic : String
  mask : Word
  pattern : Word
  deriving DecidableEq, Repr

/-- The opcode map of R95, in the source's order. -/
def opcodeTable : List OpcodeRow :=
  [⟨"CLS", 0xFFFF, 0x00E0⟩, ⟨"RET", 0xFFFF, 0x00EE⟩, ⟨"JP", 0xF000, 0x1000⟩, ⟨"CALL", 0xF000, 0x2000⟩,
   ⟨"SE_imm", 0xF000, 0x3000⟩, ⟨"SNE_imm", 0xF000, 0x4000⟩, ⟨"SE_reg", 0xF00F, 0x5000⟩,
   ⟨"LD_imm", 0xF000, 0x6000⟩, ⟨"ADD_imm", 0xF000, 0x7000⟩]

/-- Which row of the opcode map an instruction belongs to. -/
def rowOf : Instr → OpcodeRow
  | .cls => ⟨"CLS", 0xFFFF, 0x00E0⟩
  | .ret => ⟨"RET", 0xFFFF, 0x00EE⟩
  | .jp _ => ⟨"JP", 0xF000, 0x1000⟩
  | .call _ => ⟨"CALL", 0xF000, 0x2000⟩
  | .seImm _ _ => ⟨"SE_imm", 0xF000, 0x3000⟩
  | .sneImm _ _ => ⟨"SNE_imm", 0xF000, 0x4000⟩
  | .seReg _ _ => ⟨"SE_reg", 0xF00F, 0x5000⟩
  | .ldImm _ _ => ⟨"LD_imm", 0xF000, 0x6000⟩
  | .addImm _ _ => ⟨"ADD_imm", 0xF000, 0x7000⟩

end Sys2Proof
end

