-- ==== Sys2Proof/Config.lean ====
section
/-! DEFINITION. What an implementation fixes: the sizes of 00_scope.md R4, all of them given by the spec, and
the one open parameter that is a value of the machine, GLYPH_TABLE (R4, R63; 92_eei_decisions.md D11). -/

namespace Sys2Proof

/-- MEM_SIZE: addresses 0x000 to 0xFFF (R4, R60). -/
abbrev Config.memSize : Nat := 4096

/-- LOAD_ADDR, where Load puts the first byte of the image (R4, R232). -/
abbrev Config.loadAddr : Nat := 0x200

/-- RESET_PC (R4, R36). -/
abbrev Config.resetPc : Word := 0x200

/-- GLYPH_ADDR, where Load puts the glyph table (R4, R232). -/
abbrev Config.glyphAddr : Nat := 0x050

/-- MAX_IMAGE: 4096 minus 512 bytes (R4, R232, R233). -/
abbrev Config.maxImage : Nat := 3584

/-- STACK_DEPTH as the 8-bit SP counts it: the value of SP on a full stack (R4, R26). -/
abbrev Config.stackFull : Byte := 16

/-- The 80 bytes of a glyph table: 16 glyphs of 5 bytes (R4). -/
abbrev GlyphTable := Vector Byte 80

/-- GLYPH_TABLE. The spec gives the place and the size of the table and no byte of it, and leaves it OPEN
(R63, D11), so it is a free value: a constant without a body. UNVERIFIED contents, safe: see log entry 1. -/
opaque Config.glyphTable : GlyphTable

end Sys2Proof
end

