-- ==== Sys2Proof/Machine/State.lean ====
section
/-! DEFINITION. The machine instance of 10_state.md R20, all of it and nothing else, as plain data; its reset value
(R36, R280); the canonical form of memory; and the reasons a step or a host operation can stop. -/

namespace Sys2Proof.Machine

/-! ## Memory -/

/-- MEM (R60): the cells that do not hold what an unlisted cell reads as, in rising order of address. -/
abbrev Memory := List Host.Cell

/-- What a cell that is not listed reads as: memory is "allocated once at machine creation (zero-filled)"
(R36, R60). -/
abbrev Memory.unlisted : Byte := 0#8

/-- The canonical form from address `lo` up: addresses at least `lo`, strictly rising, inside MEM, and no cell
listed that reads as an unlisted one. -/
def Memory.wfFrom (lo : Nat) : Memory → Bool
  | [] => true
  | (a, v) :: rest =>
    decide (lo ≤ a) && decide (a < Config.memSize) && (v != Memory.unlisted) && Memory.wfFrom (a + 1) rest

/-- The canonical form of memory. -/
def Memory.wf (m : Memory) : Bool := Memory.wfFrom 0 m

/-! ## The fault record -/

/-- The causes a fault record can hold, by name (60_exceptions.md R251: "a model may equally carry the name as a
constructor"). -/
inductive Cause where
  /-- Code 0, the reset value: no fault yet. -/
  | none
  /-- Code 1: a word that matches no instruction (R252). -/
  | unknownOpcode
  /-- Code 2: CALL with SP = 16 (R253). -/
  | stackOverflow
  /-- Code 3: RET with SP = 0 (R254). -/
  | stackUnderflow
  /-- Code 4: a Step that begins with PC > 0xFFE (R255). -/
  | fetchOutOfRange
  deriving DecidableEq, Repr

/-- FAULT (R33): the cause, the address of the faulting instruction, and its word. -/
structure FaultRecord where
  cause : Cause
  addr : Word
  word : Word
  deriving DecidableEq, Repr

/-! ## The machine instance -/

/-- DISP (R31): 32 rows of 64 cells, `disp[y][x]` (92_eei_decisions.md D15); true is on. -/
abbrev Display := Vector (Vector Bool 64) 32

/-- The display with every cell off (R36, R140). -/
def Display.off : Display := Vector.replicate 32 (Vector.replicate 64 false)

/-- The machine instance (R20). The instruction word is not part of it (R32), and there is no hidden state. -/
structure State where
  /-- MEM (R60). -/
  mem : Memory
  /-- V0 to VF (R21, R22). -/
  v : Vector Byte 16
  /-- I, the index register (R23). -/
  i : Word
  /-- PC (R24). -/
  pc : Word
  /-- SP, the number of entries on the stack (R26). -/
  sp : Byte
  /-- STACK[0..15] (R27). -/
  stack : Vector Word 16
  /-- DT, the countdown timer (R29). -/
  dt : Byte
  /-- K[0..15], the key flags; true is pressed (R30). -/
  keys : Vector Bool 16
  /-- DISP (R31). -/
  disp : Display
  /-- HALT: true is halted (R33). -/
  halt : Bool
  /-- FAULT (R33). -/
  fault : FaultRecord
  deriving DecidableEq, Repr

/-- The state after Reset (R36, R280): memory all 0x00, the glyph table included, PC at 0x200, and every other
piece of state at the value of R36's table. -/
def State.reset : State where
  mem := []
  v := Vector.replicate 16 0
  i := 0
  pc := Config.resetPc
  sp := 0
  stack := Vector.replicate 16 0
  dt := 0
  keys := Vector.replicate 16 false
  disp := Display.off
  halt := false
  fault := ⟨.none, 0, 0⟩

/-! ## Why a step or a host operation stops -/

/-- The reasons a step of the model stops without a next state. The spec's own four faults are no stops: each is a
next state with HALT set (R258). -/
inductive Fault where
  /-- Raised by CALL and RET where SP is 17 to 255, so that the stack entry they would use does not exist (R6,
  R26). The spec calls those values of SP unreachable and gives no effect there. DESIGN CHOICE, safe: log entry 2. -/
  | noStackEntry
  deriving DecidableEq, Repr

/-- The reasons the model gives an instruction or a host operation no meaning. -/
inductive Refusal where
  /-- Raised by exec's arm for an instruction that has no meaning yet; no arm does. Safe. -/
  | notModelled (mnemonic : String)
  /-- Raised by the host operation SetKey for an index outside 0 to 15, which violates its input contract
  (R237, D14). Safe. -/
  | keyIndexOutOfRange
  /-- Raised by the host operation Load after a successful Load (R234, D12). Safe. -/
  | loadTwice
  /-- Raised by the host operation Load after a Step (R234, D12). Safe. -/
  | loadAfterStep
  deriving DecidableEq, Repr

end Sys2Proof.Machine
end

