-- ==== Sys2Proof/Machine/Ops.lean ====
section
/-! DEFINITION. The shared operations over memory, PC, the return stack and the fault record: the primitives of
00_scope.md R6 and 20_memory.md R66, fetch and pre-increment (40_step_cycle.md R122, R123), skip (R126), fault entry
(60_exceptions.md R258), and the display write port (R140). There is no return from a fault (R259), so no operation
undoes `State.raise`; only Reset does, by giving `State.reset`. -/

namespace Sys2Proof.Machine

/-! ## Memory -/

/-- The content of one cell of MEM; the address is checked by the primitives below (R66). -/
def Memory.read : Memory → Nat → Byte
  | [], _ => Memory.unlisted
  | (k, u) :: rest, a => if a = k then u else Memory.read rest a

/-- Store one cell, keeping the canonical form; the address is checked by the primitives below (R66). -/
def Memory.write : Memory → Nat → Byte → Memory
  | [], a, v => if v = Memory.unlisted then [] else [(a, v)]
  | (k, u) :: rest, a, v =>
    if a < k then (if v = Memory.unlisted then (k, u) :: rest else (a, v) :: (k, u) :: rest)
    else if a = k then (if v = Memory.unlisted then rest else (a, v) :: rest)
    else (k, u) :: Memory.write rest a v

/-- `MemRead(addr, 1)`; none where the range condition fails, and then nothing is read (R66). -/
def memRead1 (m : Memory) (addr : Nat) : Option Byte :=
  if addr ≤ 0xFFF then some (m.read addr) else none

/-- `MemRead(addr, 2)`: `MEM[addr] ++ MEM[addr+1]`; none where the range condition fails (R66). -/
def memRead2 (m : Memory) (addr : Nat) : Option Word :=
  if addr + 1 ≤ 0xFFF then some (joinBytes (m.read addr) (m.read (addr + 1))) else none

/-- `MemWrite(addr, 1, v)`; none where the range condition fails, and then nothing is written (R66). -/
def memWrite1 (m : Memory) (addr : Nat) (v : Byte) : Option Memory :=
  if addr ≤ 0xFFF then some (m.write addr v) else none

/-- `MemWrite(addr, 2, v)`: the bytes of v, most significant first, from addr upward (R66). -/
def memWrite2 (m : Memory) (addr : Nat) (v : Word) : Option Memory :=
  if addr + 1 ≤ 0xFFF then some ((m.write addr (highByte v)).write (addr + 1) (lowByte v)) else none

/-- Single-byte writes of a byte sequence at rising addresses, as Load does them (R68, R232); none as soon as one
of them is out of range. -/
def memWriteBytes (m : Memory) (addr : Nat) : List Byte → Option Memory
  | [] => some m
  | b :: bs => (memWrite1 m addr b).bind (fun m' => memWriteBytes m' (addr + 1) bs)

/-! ## Fetch and the program counter -/

/-- The fetch of R122: `MemRead(PC, 2)`, performed only if PC <= 0xFFE (R69); none where it is out of range. -/
def State.fetchWord (s : State) : Option Word := memRead2 s.mem s.pc.toNat

/-- `pc <- target` (R6). -/
def State.setPc (s : State) (target : Word) : State := { s with pc := target }

/-- The pre-increment of R123, done before decode. -/
def State.advancePc (s : State) : State := s.setPc (s.pc + 2)

/-- Skip (R126): PC advances by an additional 2; the skipped word is not looked at. -/
def State.skipNext (s : State) : State := s.setPc (s.pc + 2)

/-- `a`, the address of the instruction whose handler is running. PC then holds `a + 2` (R24, R123), so it is
PC minus 2; DEDUCED, log entry 3. -/
def State.instrAddr (s : State) : Word := s.pc - 2

/-! ## Fault entry -/

/-- The code of a cause, 3 bits (R251, D6); codes 5 to 7 are unused. -/
def Cause.code : Cause → BitVec 3
  | .none => 0
  | .unknownOpcode => 1
  | .stackOverflow => 2
  | .stackUnderflow => 3
  | .fetchOutOfRange => 4

/-- `raise F(a, w)` (R258): HALT and FAULT are written and nothing else. PC is as R128 says because the three
dispatch-time faults are raised on the state with PC = a + 2 and FetchOutOfRange on the state with PC = a. -/
def State.raise (s : State) (cause : Cause) (a w : Word) : State :=
  { s with halt := true, fault := ⟨cause, a, w⟩ }

/-- FetchOutOfRange(a): raised before the pre-increment; no word was fetched, so 0x0000 is recorded (R255). -/
def State.raiseFetchOutOfRange (s : State) : State := s.raise .fetchOutOfRange s.pc 0

/-- UnknownOpcode(a, w): raised after the pre-increment in place of a handler (R252). -/
def State.raiseUnknownOpcode (s : State) (w : Word) : State := s.raise .unknownOpcode s.instrAddr w

/-! ## The return stack -/

/-- `STACK[j]`, 0 <= j <= 15; none where there is no entry j (R6, R27). -/
def State.stackEntry (s : State) (j : Nat) : Option Word := s.stack[j]?

/-- `STACK[j] <- v`, 0 <= j <= 15; none where there is no entry j (R6, R27). -/
def State.setStackEntry (s : State) (j : Nat) (v : Word) : Option State :=
  if h : j < 16 then some { s with stack := s.stack.set j v h } else none

/-- `SP <- n` (R26). -/
def State.setSp (s : State) (n : Byte) : State := { s with sp := n }

/-! ## The display -/

/-- `DISP[y][x]` (R6, R31). -/
def State.pixel (s : State) (y : Fin 32) (x : Fin 64) : Bool := s.disp[y][x]

/-- The framebuffer write port as CLS drives it: every cell off (R2, R140). -/
def State.clearDisplay (s : State) : State := { s with disp := Display.off }

/-! ## Placing an instruction for the next step -/

/-- Store a word, high byte first, where the next Step fetches. A Step fetches only on a machine that is not halted
and only at PC <= 0xFFE (R121, R122), so HALT is cleared, and a PC outside that range is put at 0x200. This stands
for Load (R281) in a harness and is no operation of the hardware; DESIGN CHOICE, log entry 4. -/
def State.placeWord (s : State) (w : Word) : State :=
  let a : Word := if s.pc.toNat ≤ 0xFFE then s.pc else Config.resetPc
  { s with
    pc := a
    halt := false
    mem := (s.mem.write a.toNat (highByte w)).write (a.toNat + 1) (lowByte w) }

end Sys2Proof.Machine
end

