-- ==== Sys2Proof/Machine/Operands.lean ====
section
/-! DEFINITION. The operand forms of the nine instructions (30_encoding.md R92, R93): a general register selected by
x or y, the immediate kk, which is used as it stands, and the absolute address nnn. There is no addressing mode and
no operand in memory (20_memory.md R68). -/

namespace Sys2Proof.Machine

/-- `V[r]`: no register is hardwired, none aliases another (R21). -/
def State.readV (s : State) (r : Reg) : Byte := s.v[r]

/-- `V[r] <- value` (R6, R21); VF is an ordinary register (R22). -/
def State.writeV (s : State) (r : Reg) (value : Byte) : State := { s with v := s.v.set r value }

/-- `zext_16(nnn)`: absolute, not scaled, not relative to PC (R93). -/
def zextAddr (nnn : Addr) : Word := nnn.setWidth 16

end Sys2Proof.Machine
end

