-- ==== Sys2Proof/Machine/Flags.lean ====
section
/-! DEFINITION. The conditions and the adder of the register datapath. The hardware has no status flags, condition
codes or predicates (10_state.md R34): a comparison acts on PC in the same Step and is stored nowhere, and the one
addition sets no flag (44_register_load_add.md R191, R193). -/

namespace Sys2Proof.Machine

/-- The comparator: equality of all eight bits (R170, R172, R192). -/
def bytesEqual (a b : Byte) : Bool := a == b

/-- The adder: 8-bit unsigned addition modulo 256, no carry out (R191, R192). -/
def addBytes (a b : Byte) : Byte := a + b

/-- Skip the next instruction if a condition holds; otherwise PC stays at a + 2 (R126). -/
def State.skipIf (s : State) (condition : Bool) : State := if condition then s.skipNext else s

end Sys2Proof.Machine
end

