-- ==== Sys2Proof/Machine/ControlTransfer.lean ====
section
/-! DEFINITION. The control transfers RET, JP and CALL (42_control_transfer.md). -/

namespace Sys2Proof.Machine

/-- RET (R150): StackUnderflow if SP = 0, checked before the decrement; otherwise SP is decremented and PC becomes
the entry now at SP, which keeps its value (R27). SP above 16 has no entry there: log entry 2. -/
def execRet (s : State) : Host.Outcome State Fault Refusal :=
  if s.sp = 0 then .next (s.raise .stackUnderflow s.instrAddr (encode .ret))
  else
    match s.stackEntry (s.sp - 1).toNat with
    | some target => .next ((s.setSp (s.sp - 1)).setPc target)
    | none => .fault .noStackEntry

/-- JP addr (R151): PC becomes nnn; the pre-incremented value is discarded and nothing is saved. -/
def execJp (nnn : Addr) (s : State) : Host.Outcome State Fault Refusal := .next (s.setPc (zextAddr nnn))

/-- CALL addr (R152): StackOverflow if SP = 16; otherwise the pre-incremented PC, a + 2, is written to STACK[SP], SP
is incremented and PC becomes nnn. SP above 16 has no entry there: log entry 2. -/
def execCall (nnn : Addr) (s : State) : Host.Outcome State Fault Refusal :=
  if s.sp = Config.stackFull then .next (s.raise .stackOverflow s.instrAddr (encode (.call nnn)))
  else
    match s.setStackEntry s.sp.toNat s.pc with
    | some t => .next ((t.setSp (s.sp + 1)).setPc (zextAddr nnn))
    | none => .fault .noStackEntry

end Sys2Proof.Machine
end

