-- ==== Sys2Proof/Machine/Display.lean ====
section
/-! DEFINITION. The display instruction, CLS (41_display_clear.md). Each meaning of this and the next files is the
handler of its rule: it runs on a state whose PC already holds a + 2 (40_step_cycle.md R123). -/

namespace Sys2Proof.Machine

/-- CLS: every cell of DISP is off, whatever it was; PC is left at a + 2 (R140). -/
def execCls (s : State) : Host.Outcome State Fault Refusal := .next s.clearDisplay

end Sys2Proof.Machine
end

