-- ==== Sys2Proof/Machine/LoadAdd.lean ====
section
/-! DEFINITION. The register load and add, LD Vx,kk and ADD Vx,kk (44_register_load_add.md). -/

namespace Sys2Proof.Machine

/-- LD Vx,kk (R190): V[x] becomes kk; PC is left at a + 2. -/
def execLdImm (x : Reg) (kk : Byte) (s : State) : Host.Outcome State Fault Refusal := .next (s.writeV x kk)

/-- ADD Vx,kk (R191): V[x] becomes (V[x] + kk) mod 256; no flag, VF only where x = F; PC is left at a + 2. -/
def execAddImm (x : Reg) (kk : Byte) (s : State) : Host.Outcome State Fault Refusal :=
  .next (s.writeV x (addBytes (s.readV x) kk))

end Sys2Proof.Machine
end

