-- ==== Sys2Proof/Machine/Skip.lean ====
section
/-! DEFINITION. The conditional skips SE Vx,kk; SNE Vx,kk; SE Vx,Vy (43_conditional_skip.md). -/

namespace Sys2Proof.Machine

/-- SE Vx,kk (R170): skip if V[x] = kk. -/
def execSeImm (x : Reg) (kk : Byte) (s : State) : Host.Outcome State Fault Refusal :=
  .next (s.skipIf (bytesEqual (s.readV x) kk))

/-- SNE Vx,kk (R171): skip if V[x] differs from kk. -/
def execSneImm (x : Reg) (kk : Byte) (s : State) : Host.Outcome State Fault Refusal :=
  .next (s.skipIf (!bytesEqual (s.readV x) kk))

/-- SE Vx,Vy (R172): skip if V[x] = V[y]. -/
def execSeReg (x y : Reg) (s : State) : Host.Outcome State Fault Refusal :=
  .next (s.skipIf (bytesEqual (s.readV x) (s.readV y)))

end Sys2Proof.Machine
end

