-- ==== Sys2Proof/Machine/Step.lean ====
section
/-! DEFINITION. The Step cycle (40_step_cycle.md R127), and where an instruction is placed for the next step. -/

namespace Sys2Proof.Machine

/-- Step (R127). A halted machine does nothing (R121); a fetch out of range raises FetchOutOfRange with PC unchanged
(R122); otherwise PC is advanced by 2 before decode (R123), and either exactly one handler runs on that state (R124)
or UnknownOpcode is raised on it. The order is the priority of R257. -/
def step (s : State) : Host.Outcome State Fault Refusal :=
  if s.halt then .next s
  else
    match s.fetchWord with
    | none => .next s.raiseFetchOutOfRange
    | some w =>
      match decode w with
      | some i => exec i s.advancePc
      | none => .next (s.advancePc.raiseUnknownOpcode w)

/-- The state in which the next step fetches and runs the word of the given bits (log entry 4). -/
def State.withFetchWord (s : State) (nbits w : Nat) : State := s.placeWord (BitVec.ofNat 16 (w % 2 ^ nbits))

end Sys2Proof.Machine
end

