-- ==== Sys2Proof/Machine/HostOps.lean ====
section
/-! DEFINITION. The operations by which the surrounding system reaches the core (47_host_operations.md): Reset, Load,
Step, TickTimer, SetKey, ReadDisplay. The first part gives each operation's effect on the machine instance; the second
puts them in one total order (20_memory.md R71, R231) and refuses the calls that R234 and R237 exclude. -/

namespace Sys2Proof.Machine

/-! ## The operations on the machine instance -/

/-- Load(bytes) with a given glyph table (R232, R233): the image at 0x200, then the table at 0x050, MEM only. None is
LoadError, and then nothing is changed: the size is checked before anything is written (90_conflicts.md C4). -/
def loadWith (glyphs : GlyphTable) (bytes : List Byte) (s : State) : Option State :=
  if bytes.length ≤ Config.maxImage then
    ((memWriteBytes s.mem Config.loadAddr bytes).bind
      (fun m => memWriteBytes m Config.glyphAddr glyphs.toList)).map (fun m => { s with mem := m })
  else none

/-- Load(bytes) with the machine's own glyph table, the free value of Config (D11, log entry 1). -/
def load (bytes : List Byte) (s : State) : Option State := loadWith Config.glyphTable bytes s

/-- TickTimer() (R236): DT minus 1, floored at 0; it acts whether or not HALT is set (D14). -/
def tickTimer (s : State) : State := if s.dt = 0 then s else { s with dt := s.dt - 1 }

/-- SetKey(index, pressed) (R237): one key flag, whether or not HALT is set (D14); none where the index is outside 0 to
15, which the input contract excludes. -/
def setKey (index : Nat) (pressed : Bool) (s : State) : Option State :=
  if h : index < 16 then some { s with keys := s.keys.set index pressed h } else none

/-- ReadDisplay() (R238): the 2048 cells as they are; it changes no state. -/
def readDisplay (s : State) : Display := s.disp

/-! ## The operations in one total order -/

/-- One call into the core (R230). -/
inductive HostOp where
  | reset
  | load (bytes : List Byte)
  | step
  | tickTimer
  | setKey (index : Nat) (pressed : Bool)
  | readDisplay
  deriving DecidableEq, Repr

/-- What a call gives back to its caller. -/
inductive Reply where
  /-- The operation is complete and returns nothing. -/
  | done
  /-- Load's error on an oversized image: no fault of the machine, no state changed (R233, R256). -/
  | loadError
  /-- The diagnostic of a Step that ended in a fault (R235, R258). -/
  | faulted (record : FaultRecord)
  /-- The snapshot ReadDisplay returns (R238). -/
  | display (grid : Display)
  deriving DecidableEq, Repr

/-- How far the launch sequence of R281 has come: what the host may still do with Load (R234). -/
inductive Phase where
  /-- After Reset: no successful Load and no Step yet. -/
  | fresh
  /-- One successful Load, no Step yet. -/
  | loaded
  /-- A Step has been made. -/
  | running
  deriving DecidableEq, Repr

/-- The machine instance and the host's place in the launch sequence. The phase belongs to the host's protocol (R234,
R285) and is not state of the machine: no operation on the machine instance reads it. DESIGN CHOICE, log entry 5. -/
structure Session where
  machine : State
  phase : Phase
  deriving DecidableEq, Repr

/-- The session that Reset gives (R280, R281). -/
def Session.reset : Session := ⟨State.reset, .fresh⟩

/-- The reply of a Step that took the machine from `s` to `t`: the fault record if it raised a fault (R235, R258). A
Step on a halted machine raises none, so it is complete (R121); DEDUCED, log entry 6. -/
def stepReply (s t : State) : Reply := if t.halt && !s.halt then .faulted t.fault else .done

/-- Load as the host may call it (R234): refused after a Step and after a successful Load; a failed Load changes
nothing and does not count. -/
def hostLoad (glyphs : GlyphTable) (bytes : List Byte) (t : Session) :
    Host.Outcome (Session × Reply) Fault Refusal :=
  match t.phase with
  | .running => .refused .loadAfterStep
  | .loaded => .refused .loadTwice
  | .fresh =>
    match loadWith glyphs bytes t.machine with
    | some m => .next (⟨m, .loaded⟩, .done)
    | none => .next (t, .loadError)

/-- Step as the host calls it (R235). -/
def hostStep (t : Session) : Host.Outcome (Session × Reply) Fault Refusal :=
  match step t.machine with
  | .next m => .next (⟨m, .running⟩, stepReply t.machine m)
  | .fault r => .fault r
  | .refused r => .refused r

/-- SetKey as the host may call it (R237). -/
def hostSetKey (index : Nat) (pressed : Bool) (t : Session) : Host.Outcome (Session × Reply) Fault Refusal :=
  match setKey index pressed t.machine with
  | some m => .next ({ t with machine := m }, .done)
  | none => .refused .keyIndexOutOfRange

/-- One operation of the interface, for a given glyph table (R230). Reset may be applied at any time and always gives
the same session (R280, D19). -/
def hostOp (glyphs : GlyphTable) (op : HostOp) (t : Session) : Host.Outcome (Session × Reply) Fault Refusal :=
  match op with
  | .reset => .next (Session.reset, .done)
  | .load bytes => hostLoad glyphs bytes t
  | .step => hostStep t
  | .tickTimer => .next ({ t with machine := tickTimer t.machine }, .done)
  | .setKey index pressed => hostSetKey index pressed t
  | .readDisplay => .next (t, .display (readDisplay t.machine))

/-- A schedule: operations one after the other in any order and number (R231, D17), with their replies. It stops at
the first one that is refused. -/
def hostRun (glyphs : GlyphTable) : List HostOp → Session → Host.Outcome (Session × List Reply) Fault Refusal
  | [], t => .next (t, [])
  | op :: ops, t =>
    match hostOp glyphs op t with
    | .fault r => .fault r
    | .refused r => .refused r
    | .next (t', reply) =>
      match hostRun glyphs ops t' with
      | .next (t'', replies) => .next (t'', reply :: replies)
      | .fault r => .fault r
      | .refused r => .refused r

end Sys2Proof.Machine
end

