-- ==== Sys2Proof/Safety.lean ====
section
/-! DEFINITION. What a safe state and a safe run are, in the terms claims use: the ranges the spec says PC, SP and the
return stack stay in (10_state.md R25, R26, R28), the agreement of HALT and FAULT (60_exceptions.md R251, R258, R259),
and the two ends of a run (70_reset_and_hazards.md R288). -/

namespace Sys2Proof.Machine

/-- The machine runs, and the word w stands at PC, high byte first, both of its bytes inside MEM: the next Step fetches w
(R64, R69, R121). -/
def State.AboutToRun (s : State) (w : Word) : Prop :=
  s.halt = false ∧ s.pc.toNat ≤ 0xFFE ∧
    s.mem.read s.pc.toNat = highByte w ∧ s.mem.read (s.pc.toNat + 1) = lowByte w

/-- The outcome with its next state, if it has one, changed by f: for claims that a step neither reads nor writes the
part of the state that f replaces. -/
def onNext {σ : Type} (f : σ → σ) : Host.Outcome σ Fault Refusal → Host.Outcome σ Fault Refusal
  | .next t => .next (f t)
  | .fault r => .fault r
  | .refused r => .refused r

/-- The general registers an instruction selects by x or y (R21, R93); the others it neither reads nor writes. -/
def selectedRegs : Instr → List Reg
  | .cls => []
  | .ret => []
  | .jp _ => []
  | .call _ => []
  | .seImm x _ => [x]
  | .sneImm x _ => [x]
  | .seReg x y => [x, y]
  | .ldImm x _ => [x]
  | .addImm x _ => [x]

/-- A session whose machine instance is changed by f. -/
def Session.onMachine (f : State → State) (u : Session) : Session := { u with machine := f u.machine }

/-- Every live entry of the stack is a return address a CALL can have pushed: 0x0002 to 0x1000 (R28). -/
def State.stackOk (s : State) : Prop :=
  ∀ j : Fin 16, j.val < s.sp.toNat → 2 ≤ s.stack[j].toNat ∧ s.stack[j].toNat ≤ 0x1000

/-- HALT and FAULT agree (R33, R251): a running machine has the empty record, and a halted one a record that a Step
can have written, with the address and word R251 says for its cause. -/
def State.faultOk (s : State) : Prop :=
  match s.fault.cause with
  | .none => s.halt = false ∧ s.fault.addr = 0 ∧ s.fault.word = 0
  | .unknownOpcode => s.halt = true ∧ s.fault.addr.toNat ≤ 0xFFE ∧ decode s.fault.word = none
  | .stackOverflow => s.halt = true ∧ s.fault.addr.toNat ≤ 0xFFE ∧ ∃ nnn, s.fault.word = encode (.call nnn)
  | .stackUnderflow => s.halt = true ∧ s.fault.addr.toNat ≤ 0xFFE ∧ s.fault.word = encode .ret
  | .fetchOutOfRange => s.halt = true ∧ 0xFFE < s.fault.addr.toNat ∧ s.fault.word = 0

/-- The invariant of the machine: memory in canonical form, PC at most 0x1002 (R25), SP 0 to 16 (R26), the stack
(R28), and HALT with FAULT. -/
structure State.Inv (s : State) : Prop where
  memory : s.mem.wf = true
  pc : s.pc.toNat ≤ 0x1002
  sp : s.sp.toNat ≤ 16
  stack : s.stackOk
  fault : s.faultOk

/-- DT is 0 and every cell of DISP is off, as they stay for ever in this hardware (R29, R31). -/
structure State.Quiet (s : State) : Prop where
  timer : s.dt = 0
  display : ∀ (y : Fin 32) (x : Fin 64), s.pixel y x = false

/-- The run has ended in a fault; never a successful end (R259, R288). -/
def State.EndedInFault (s : State) : Prop := s.halt = true

/-- The run has come to rest at address a: HALT is 0, PC is a, and the word at a is `JP a`, 0x1000 + a (R131,
R288). -/
def State.AtRest (s : State) (a : Word) : Prop :=
  s.halt = false ∧ s.pc = a ∧ a.toNat ≤ 0xFFE ∧ s.fetchWord = some (0x1000 + a)

/-- A run of k Steps in which no Step ended in a fault: the premise and the proof of a claim about a program (R259). -/
def State.RunsCleanly : Nat → State → Prop
  | 0, s => s.halt = false
  | k + 1, s => s.halt = false ∧ ∃ t, step s = .next t ∧ State.RunsCleanly k t

end Sys2Proof.Machine
end

