-- ==== Sys2Proof/Certificates/Slice0/Obligations.lean ====
section
/-! DEFINITION. The statements for the provers, one `Obligations.<Name>` each, in the order of OBLIGATIONS.json. In a
statement about `exec` the state s is the one a handler runs on: its PC already holds a + 2 (40_step_cycle.md R123). In
a statement about `step` it is the state the Step begins with, and `s.AboutToRun w` says that the machine is not halted
and the word w stands at its PC, which is `a`. Where a docstring names a decision D<n>, the spec marks that point as
its own choice and not the source's. -/

open Sys2Proof Sys2Proof.Machine

/-! ## Reset and launch -/

/-- R36's table and R280: every piece of state after Reset, and Reset as an operation, at any time. The rows for V, I,
STACK, DT, K and DISP are decision D8, those for HALT and FAULT D6, reset at any time D19 (log entry 7). -/
def Obligations.ResetGivesEveryFieldItsValue : Prop :=
  (∀ a : Nat, State.reset.mem.read a = 0) ∧ State.reset.pc.toNat = 0x200 ∧ State.reset.sp = 0 ∧
  (∀ r : Reg, State.reset.v[r] = 0) ∧ State.reset.i = 0 ∧ (∀ j : Fin 16, State.reset.stack[j] = 0) ∧
  State.reset.dt = 0 ∧ (∀ k : Fin 16, State.reset.keys[k] = false) ∧
  (∀ (y : Fin 32) (x : Fin 64), State.reset.pixel y x = false) ∧
  State.reset.halt = false ∧ State.reset.fault = ⟨.none, 0, 0⟩ ∧
  (∀ (g : GlyphTable) (u : Session), ∃ u', hostOp g .reset u = .next (u', .done) ∧
    u'.machine = State.reset ∧ u'.phase = .fresh)

/-- R282, which the spec marks as derived: the launch state, after Reset, one Load of an image that fits, and nothing
else. The reset values of D8 and D6 in it are the spec's own choice (log entry 7). -/
def Obligations.LaunchStateIsDetermined : Prop :=
  ∀ (g : GlyphTable) (image : List Byte), image.length ≤ 3584 →
    ∃ u, hostRun g [.reset, .load image] Session.reset = .next (u, [.done, .done]) ∧ u.phase = .loaded ∧
      u.machine = { State.reset with mem := u.machine.mem } ∧
      (∀ a : Nat, a < 0x50 → u.machine.mem.read a = 0) ∧
      (∀ (k : Nat) (h : k < 80), u.machine.mem.read (0x50 + k) = g[k]) ∧
      (∀ a : Nat, 0xA0 ≤ a → a < 0x200 → u.machine.mem.read a = 0) ∧
      (∀ (k : Nat) (h : k < image.length), u.machine.mem.read (0x200 + k) = image[k]) ∧
      (∀ a : Nat, 0x200 + image.length ≤ a → u.machine.mem.read a = 0)

/-! ## Memory and fetch -/

/-- R66: the two memory primitives, their range condition, their byte order, and that an access that fails the
condition is not performed. Memory is in canonical form before and after. -/
def Obligations.MemoryPrimitivesAreRangeChecked : Prop :=
  ∀ m : Memory, m.wf = true →
    (∀ a : Nat, memRead1 m a = if a ≤ 0xFFF then some (m.read a) else none) ∧
    (∀ a : Nat, (memRead2 m a = none ↔ 0xFFF < a + 1) ∧
      ∀ w, memRead2 m a = some w → w.toNat = 256 * (m.read a).toNat + (m.read (a + 1)).toNat) ∧
    (∀ (a : Nat) (v : Byte), (memWrite1 m a v = none ↔ 0xFFF < a) ∧
      ∀ m', memWrite1 m a v = some m' →
        Memory.wf m' = true ∧ memRead1 m' a = some v ∧ ∀ b : Nat, b ≠ a → m'.read b = m.read b) ∧
    (∀ (a : Nat) (w : Word), (memWrite2 m a w = none ↔ 0xFFF < a + 1) ∧
      ∀ m', memWrite2 m a w = some m' →
        Memory.wf m' = true ∧ memRead2 m' a = some w ∧ (m'.read a).toNat = w.toNat / 256 ∧
        (m'.read (a + 1)).toNat = w.toNat % 256 ∧
        ∀ b : Nat, b ≠ a → b ≠ a + 1 → m'.read b = m.read b)

/-- R64: fetch is big-endian from the two bytes at PC, and no instruction reads or writes data in MEM: a handler does
the same whatever MEM holds, and leaves it as it is. -/
def Obligations.FetchIsBigEndianAndTheOnlyMemoryAccess : Prop :=
  (∀ (s : State) (w : Word), s.fetchWord = some w →
    w.extractLsb' 8 8 = s.mem.read s.pc.toNat ∧ w.extractLsb' 0 8 = s.mem.read (s.pc.toNat + 1) ∧
    w.toNat = 256 * (s.mem.read s.pc.toNat).toNat + (s.mem.read (s.pc.toNat + 1)).toNat) ∧
  (∀ (i : Instr) (s : State) (m : Memory),
    exec i { s with mem := m } = onNext (fun t => { t with mem := m }) (exec i s))

/-- R70: one flat store, every address readable by fetch at that same address, and no byte of it changed by a Step,
whatever the Step does. -/
def Obligations.MemoryIsFlatReadableAndNotWrittenByAnyStep : Prop :=
  (∀ (s : State), s.pc.toNat ≤ 0xFFE → ∃ w, s.fetchWord = some w ∧
    highByte w = s.mem.read s.pc.toNat ∧ lowByte w = s.mem.read (s.pc.toNat + 1)) ∧
  (∀ s t : State, step s = .next t → t.mem = s.mem ∧ ∀ a : Nat, t.mem.read a = s.mem.read a)

/-! ## Decoding and encoding -/

/-- Decode and encode agree: every instruction, with every operand at every value its encoding admits, is what its own
word and its own two bytes decode to. -/
def Obligations.DecodeOfEncodeIsTheInstruction : Prop :=
  ∀ i : Instr, decode (encode i) = some i ∧ ∀ rest, decodeBytes (encodeBytes i ++ rest) = .instr i rest

/-- Each word has one meaning: a word that decodes to an instruction is that instruction's own word, so no bit of it
is dropped. That the fixed digits of a pattern are matched exactly is the spec's own choice, D9 (log entry 10). -/
def Obligations.OnlyItsOwnWordDecodesToAnInstruction : Prop :=
  ∀ (w : Word) (i : Instr), decode w = some i → encode i = w

/-- The dispatch tree of R94; that every other word of families 0, 5 and 8 to F is Unknown is the spec's own choice,
D9 and D18 (log entry 10). Its case analysis and its fields in numbers: n / 4096 is w[15:12], n / 256 mod 16 is
w[11:8], n / 16 mod 16 is w[7:4], n mod 16 is w[3:0], n mod 256 is w[7:0] and n mod 4096 is w[11:0]. -/
def Obligations.DecodeFollowsTheDispatchTree : Prop :=
  ∀ w : Word,
    let n := w.toNat
    let x : Reg := Fin.ofNat 16 (n / 256 % 16)
    let y : Reg := Fin.ofNat 16 (n / 16 % 16)
    let kk : Byte := BitVec.ofNat 8 (n % 256)
    let nnn : Addr := BitVec.ofNat 12 (n % 4096)
    (n / 4096 = 0 → decode w = if n = 0xE0 then some .cls else if n = 0xEE then some .ret else none) ∧
    (n / 4096 = 1 → decode w = some (.jp nnn)) ∧
    (n / 4096 = 2 → decode w = some (.call nnn)) ∧
    (n / 4096 = 3 → decode w = some (.seImm x kk)) ∧
    (n / 4096 = 4 → decode w = some (.sneImm x kk)) ∧
    (n / 4096 = 5 → decode w = if n % 16 = 0 then some (.seReg x y) else none) ∧
    (n / 4096 = 6 → decode w = some (.ldImm x kk)) ∧
    (n / 4096 = 7 → decode w = some (.addImm x kk)) ∧
    (8 ≤ n / 4096 → decode w = none)

/-- The opcode map: a word is a row's instruction exactly when, masked, it is the row's pattern, and no word matches
two rows. That a word differing only in a fixed digit is no instruction is the spec's own choice, D9 (log entry 10).
(R95 says also how many words each row has, which this leaves out.) -/
def Obligations.OpcodeMapSelectsTheInstruction : Prop :=
  (∀ (w : Word) (r : OpcodeRow), r ∈ opcodeTable →
    ((∃ i, decode w = some i ∧ rowOf i = r) ↔ w &&& r.mask = r.pattern)) ∧
  opcodeTable.Pairwise (fun r q => ∀ w : Word, w &&& r.mask = r.pattern → w &&& q.mask ≠ q.pattern)

/-- Which words are unknown opcodes: decisions D2, D9 and D18 of the spec (R96, R97; log entry 10). -/
def Obligations.UnknownOpcodesAreExactlyTheseWords : Prop :=
  ∀ w : Word, decode w = none ↔
    (w.toNat / 4096 = 0 ∧ w.toNat ≠ 0x00E0 ∧ w.toNat ≠ 0x00EE) ∨
    (w.toNat / 4096 = 5 ∧ w.toNat % 16 ≠ 0) ∨ 8 ≤ w.toNat / 4096

/-- R90: every instruction is exactly two bytes, assembled big-endian, and its length never depends on what follows
or on any mode: bytes begin with an instruction exactly when they begin with its two bytes. That no word but its own
spells an instruction takes in D9, the spec's own choice (log entry 10). -/
def Obligations.EveryInstructionIsTwoBytes : Prop :=
  (∀ (bytes rest : List Byte) (i : Instr),
    decodeBytes bytes = .instr i rest ↔ bytes = encodeBytes i ++ rest) ∧
  (∀ i : Instr, ∃ hi lo : Byte, encodeBytes i = [hi, lo] ∧ (encode i).toNat = 256 * hi.toNat + lo.toNat) ∧
  (∀ (s : State) (i : Instr), s.fetchWord = some (encode i) ↔
    s.pc.toNat ≤ 0xFFE ∧ [s.mem.read s.pc.toNat, s.mem.read (s.pc.toNat + 1)] = encodeBytes i)

/-- Words written out from the formats of R92 (the rows of 95_test_vectors.md V-DEC), one or more for each family,
decode to the instruction they stand for. The last three, 0x5121, 0x0000 and 0x8124, are unknown opcodes by the spec's
own choice and not by the formats: D9 for the first two, D18 for the third (log entry 10). -/
def Obligations.SampleWordsDecodeToTheirInstruction : Prop :=
  decode 0x00E0 = some .cls ∧ decode 0x00EE = some .ret ∧ decode 0x10E0 = some (.jp 0x0E0) ∧
  decode 0x2ABC = some (.call 0xABC) ∧ decode 0x3A7F = some (.seImm 0xA 0x7F) ∧
  decode 0x4F00 = some (.sneImm 0xF 0x00) ∧ decode 0x5120 = some (.seReg 1 2) ∧
  decode 0x6CFF = some (.ldImm 0xC 0xFF) ∧ decode 0x7001 = some (.addImm 0 0x01) ∧
  decode 0x5121 = none ∧ decode 0x0000 = none ∧ decode 0x8124 = none

/-- The assembly of R100 and R101 in the formats of R92: the word of every written line with its operands in range,
and no word for a line with an operand out of range. -/
def Obligations.AssemblyLinesHaveTheseWords : Prop :=
  (∀ a : Nat, a ≤ 0xFFF → (∃ w, (AsmLine.jp a).word? = some w ∧ w.toNat = 0x1000 + a) ∧
    ∃ w, (AsmLine.call a).word? = some w ∧ w.toNat = 0x2000 + a) ∧
  (∀ x kk : Nat, x ≤ 15 → kk ≤ 255 →
    (∃ w, (AsmLine.se x (.num kk)).word? = some w ∧ w.toNat = 0x3000 + 256 * x + kk) ∧
    (∃ w, (AsmLine.sne x kk).word? = some w ∧ w.toNat = 0x4000 + 256 * x + kk) ∧
    (∃ w, (AsmLine.ld x kk).word? = some w ∧ w.toNat = 0x6000 + 256 * x + kk) ∧
    (∃ w, (AsmLine.add x kk).word? = some w ∧ w.toNat = 0x7000 + 256 * x + kk)) ∧
  (∀ x y : Nat, x ≤ 15 → y ≤ 15 →
    ∃ w, (AsmLine.se x (.reg y)).word? = some w ∧ w.toNat = 0x5000 + 256 * x + 16 * y) ∧
  (∀ n : Nat, n ≤ 0xFFFF → ∃ w, (AsmLine.dw n).word? = some w ∧ w.toNat = n) ∧
  AsmLine.cls.word? = some 0x00E0 ∧ AsmLine.ret.word? = some 0x00EE ∧
  (∀ line : AsmLine, line.wellFormed = false → line.word? = none)

/-! ## The Step cycle -/

/-- R123, with the dispatch of R124: a Step on a word that decodes to an instruction is that instruction's handler, run
on the state whose PC is a + 2, and that sum is at most 0x1000 and never wraps. -/
def Obligations.StepRunsTheDecodedInstruction : Prop :=
  ∀ (s : State) (w : Word) (i : Instr), s.AboutToRun w → decode w = some i →
    step s = exec i { s with pc := s.pc + 2 } ∧
    (s.pc + 2).toNat = s.pc.toNat + 2 ∧ (s.pc + 2).toNat ≤ 0x1000

/-- A placed instruction is what the next Step fetches, and placing it changes nothing but the two bytes, and HALT
and PC where no Step could fetch. The model's own convention: log entry 4. -/
def Obligations.PlacedWordIsFetchedNext : Prop :=
  ∀ (s : State) (w : Word), s.mem.wf = true →
    (s.withFetchWord 16 w.toNat).AboutToRun w ∧
    (s.withFetchWord 16 w.toNat) = { s with
      mem := (s.withFetchWord 16 w.toNat).mem, halt := false, pc := (s.withFetchWord 16 w.toNat).pc } ∧
    (s.pc.toNat ≤ 0xFFE → (s.withFetchWord 16 w.toNat).pc = s.pc) ∧
    (∀ a : Nat, a ≠ (s.withFetchWord 16 w.toNat).pc.toNat → a ≠ (s.withFetchWord 16 w.toNat).pc.toNat + 1 →
      (s.withFetchWord 16 w.toNat).mem.read a = s.mem.read a)

/-- R121, decision D7: a Step on a halted machine changes nothing, and its caller is told of no new fault (the reply
is the model's own reading, log entry 6). -/
def Obligations.HaltedStepChangesNothing : Prop :=
  ∀ u : Session, u.machine.halt = true →
    step u.machine = .next u.machine ∧ hostStep u = .next ({ u with phase := .running }, .done)

/-- R130, which the spec marks as derived: in every state that meets the invariant a Step answers a next state, so the
machine is never stuck, and it is exactly one of three: the unchanged halted state; the effect of the one instruction
at PC, which leaves the machine running; or one of the four faults, which are decisions D2 to D7 (log entry 9). HALT
before and after tells the three apart. -/
def Obligations.StepAlwaysAnswersANextState : Prop :=
  ∀ s : State, s.Inv → ∃ t, step s = .next t ∧
    ((s.halt = true ∧ t = s) ∨
     (s.halt = false ∧ t.halt = false ∧ ∃ w i, s.AboutToRun w ∧ decode w = some i ∧
       exec i { s with pc := s.pc + 2 } = .next t) ∨
     (s.halt = false ∧ t.halt = true ∧
       (t.fault.cause = .unknownOpcode ∨ t.fault.cause = .stackOverflow ∨ t.fault.cause = .stackUnderflow ∨
        t.fault.cause = .fetchOutOfRange)))

/-- R125: PC ownership. CLS, LD and ADD do not write PC and leave it at a + 2; every other change of PC is the
instruction's own, so that a Step that runs an instruction leaves PC at a + 2 unless the instruction is a skip, a jump,
a call or a return. -/
def Obligations.OnlyControlInstructionsWritePc : Prop :=
  (∀ (i : Instr) (s t : State), exec i s = .next t → t.pc ≠ s.pc →
    i ≠ .cls ∧ (∀ x kk, i ≠ .ldImm x kk) ∧ ∀ x kk, i ≠ .addImm x kk) ∧
  (∀ (s t : State) (w : Word) (i : Instr), s.AboutToRun w → decode w = some i → step s = .next t →
    t.pc.toNat ≠ s.pc.toNat + 2 →
    (∃ nnn, i = .jp nnn) ∨ (∃ nnn, i = .call nnn) ∨ i = .ret ∨
    (∃ x kk, i = .seImm x kk) ∨ (∃ x kk, i = .sneImm x kk) ∨ ∃ x y, i = .seReg x y)

/-- R131, which the spec marks as derived: a running machine's Step gives back the identical state exactly when the
machine is at rest, `JP a` standing at a = PC. (No fault is a fixed point, because it sets HALT: D6, log entry 9.) -/
def Obligations.SelfJumpIsTheOnlyFixedPoint : Prop :=
  ∀ s : State, (s.halt = false ∧ step s = .next s) ↔ s.AtRest s.pc

/-- R288 (decision D16): a machine at rest stays in that state for any number of Steps. -/
def Obligations.MachineAtRestStaysAtRest : Prop :=
  ∀ (s : State) (a : Word) (k : Nat), s.AtRest a → Host.Core.run core k s = .next s

/-! ## CLS -/

/-- R140: CLS turns all 2048 cells off whatever they were, in one Step, twice the same as once; its one word is 0x00E0;
it cannot fault, PC is written by the frame only, and nothing else changes. -/
def Obligations.ClsTurnsEveryCellOff : Prop :=
  (∀ s : State, ∃ t, exec .cls s = .next t ∧ (∀ (y : Fin 32) (x : Fin 64), t.pixel y x = false) ∧
    t = { s with disp := t.disp } ∧ exec .cls t = .next t) ∧
  (∀ s : State, s.AboutToRun 0x00E0 → ∃ t, step s = .next t ∧
    (∀ (y : Fin 32) (x : Fin 64), t.pixel y x = false) ∧ t.pc.toNat = s.pc.toNat + 2 ∧
    t = { s with disp := t.disp, pc := t.pc })

/-! ## Control transfer -/

/-- R151: JP sets PC to nnn, zero-extended, whatever PC was, and does nothing else; its word is 0x1000 + nnn. -/
def Obligations.JpSetsPcToTheAddress : Prop :=
  ∀ nnn : Addr,
    (∀ s : State, exec (.jp nnn) s = .next { s with pc := nnn.setWidth 16 }) ∧
    (∀ (s : State) (w : Word), w.toNat = 0x1000 + nnn.toNat → s.AboutToRun w →
      ∃ t, step s = .next t ∧ t.pc.toNat = nnn.toNat ∧ t = { s with pc := t.pc })

/-- CALL on a stack that is not full (R152 without its fault): the return address a + 2 is written to STACK[SP], SP is
incremented, PC becomes nnn, and nothing else changes; its word is 0x2000 + nnn. -/
def Obligations.CallPushesTheReturnAddress : Prop :=
  ∀ nnn : Addr,
    (∀ (s : State) (h : s.sp.toNat < 16), exec (.call nnn) s =
      .next { s with stack := s.stack.set s.sp.toNat s.pc h, sp := s.sp + 1, pc := nnn.setWidth 16 }) ∧
    (∀ (s : State) (w : Word), w.toNat = 0x2000 + nnn.toNat → s.AboutToRun w → s.sp.toNat < 16 →
      ∃ t, step s = .next t ∧ t.pc.toNat = nnn.toNat ∧ t.sp.toNat = s.sp.toNat + 1 ∧
        (∀ j : Fin 16, t.stack[j].toNat = if j.val = s.sp.toNat then s.pc.toNat + 2 else s.stack[j].toNat) ∧
        t = { s with stack := t.stack, sp := t.sp, pc := t.pc })

/-- RET with an entry on the stack (R150 without its fault): SP is decremented, PC becomes the entry now at SP, which
keeps its value, and nothing else changes; its word is 0x00EE. A full stack, SP = 16, is such a case. -/
def Obligations.RetPopsTheReturnAddress : Prop :=
  (∀ (s : State) (h : s.sp.toNat - 1 < 16), 0 < s.sp.toNat →
    exec .ret s = .next { s with sp := s.sp - 1, pc := s.stack[s.sp.toNat - 1] }) ∧
  (∀ (s : State) (h : s.sp.toNat - 1 < 16), 0 < s.sp.toNat → s.AboutToRun 0x00EE →
    ∃ t, step s = .next t ∧ t.sp.toNat = s.sp.toNat - 1 ∧ t.pc = s.stack[s.sp.toNat - 1] ∧
      t = { s with sp := t.sp, pc := t.pc })

/-- R153, whose exact form the spec marks as derived: a CALL to a RET comes back in two Steps to the address after the
CALL, with SP as before; the entry it wrote stays, and nothing else changes. -/
def Obligations.CallThenRetRoundTrip : Prop :=
  ∀ (s : State) (nnn : Addr) (h : s.sp.toNat < 16), s.AboutToRun (encode (.call nnn)) →
    nnn.toNat ≤ 0xFFE → s.mem.read nnn.toNat = 0x00 → s.mem.read (nnn.toNat + 1) = 0xEE →
    ∃ t, Host.Core.run core 2 s = .next t ∧ t.pc.toNat = s.pc.toNat + 2 ∧ t.sp = s.sp ∧
      t.stack = s.stack.set s.sp.toNat (s.pc + 2) h ∧ t = { s with stack := t.stack, pc := t.pc }

/-- STACK is written by CALL and by nothing else (R27, R37): an entry that a Step changes is entry SP, the Step ran a
CALL with that SP, and the entry holds a + 2; in particular a pop does not erase. -/
def Obligations.StackIsWrittenOnlyByCall : Prop :=
  ∀ (s t : State) (j : Fin 16), step s = .next t → t.stack[j] ≠ s.stack[j] →
    (∃ nnn, s.AboutToRun (encode (.call nnn))) ∧ j.val = s.sp.toNat ∧ t.sp.toNat = s.sp.toNat + 1 ∧
    t.stack[j].toNat = s.pc.toNat + 2

/-- Where SP is 17 to 255 there is no stack entry for CALL or RET to use: the spec calls those values unreachable and
gives no effect there, and both stop. The model's own choice: log entry 2. -/
def Obligations.CallAndRetStopWhereNoStackEntryExists : Prop :=
  ∀ s : State, 16 < s.sp.toNat →
    (∀ nnn, exec (.call nnn) s = .fault .noStackEntry) ∧ exec .ret s = .fault .noStackEntry

/-! ## Conditional skips

The clauses about `exec` take the PC that a Step hands to a handler, at most 0x1000 (StepRunsTheDecodedInstruction): what
PC + 2 is at the top of the 16 bits the spec leaves undefined (R25, log entry 14). -/

/-- R170: SE Vx,kk skips, final PC a + 4, if V[x] = kk, and otherwise leaves PC at a + 2; nothing else changes; its
word is 3xkk. -/
def Obligations.SeImmediateSkipsIfEqual : Prop :=
  ∀ (x : Reg) (kk : Byte),
    (∀ s : State, s.pc.toNat ≤ 0x1000 →
      exec (.seImm x kk) s = .next (if s.v[x] = kk then { s with pc := s.pc + 2 } else s)) ∧
    (∀ (s : State) (w : Word), w.toNat = 0x3000 + 0x100 * x.val + kk.toNat → s.AboutToRun w →
      ∃ t, step s = .next t ∧ t.pc.toNat = s.pc.toNat + (if s.v[x] = kk then 4 else 2) ∧
        t = { s with pc := t.pc })

/-- R171: SNE Vx,kk skips, final PC a + 4, if V[x] differs from kk, and otherwise leaves PC at a + 2; nothing else
changes; its word is 4xkk. -/
def Obligations.SneImmediateSkipsIfDifferent : Prop :=
  ∀ (x : Reg) (kk : Byte),
    (∀ s : State, s.pc.toNat ≤ 0x1000 →
      exec (.sneImm x kk) s = .next (if s.v[x] ≠ kk then { s with pc := s.pc + 2 } else s)) ∧
    (∀ (s : State) (w : Word), w.toNat = 0x4000 + 0x100 * x.val + kk.toNat → s.AboutToRun w →
      ∃ t, step s = .next t ∧ t.pc.toNat = s.pc.toNat + (if s.v[x] = kk then 2 else 4) ∧
        t = { s with pc := t.pc })

/-- R172 without its last remark: SE Vx,Vy skips, final PC a + 4, if V[x] = V[y] (always where x = y), and otherwise
leaves PC at a + 2; nothing else changes; its word is 5xy0. (That 5xy1 to 5xyF are unknown opcodes is decision D9,
stated in UnknownOpcodesAreExactlyTheseWords.) -/
def Obligations.SeRegisterSkipsIfEqual : Prop :=
  ∀ x y : Reg,
    (∀ s : State, s.pc.toNat ≤ 0x1000 →
      exec (.seReg x y) s = .next (if s.v[x] = s.v[y] then { s with pc := s.pc + 2 } else s)) ∧
    (∀ (s : State) (w : Word), w.toNat = 0x5000 + 0x100 * x.val + 0x10 * y.val → s.AboutToRun w →
      ∃ t, step s = .next t ∧ t.pc.toNat = s.pc.toNat + (if s.v[x] = s.v[y] then 4 else 2) ∧
        t = { s with pc := t.pc })

/-- R173: SE Vx,kk and SNE Vx,kk are complements: from the same state, but for the instruction that stands at PC, one
Step ends with PC = a + 4 and the other with PC = a + 2. -/
def Obligations.SeAndSneAreComplements : Prop :=
  ∀ (x : Reg) (kk : Byte) (s : State) (m : Memory) (w w' : Word),
    w.toNat = 0x3000 + 0x100 * x.val + kk.toNat → w'.toNat = 0x4000 + 0x100 * x.val + kk.toNat →
    s.AboutToRun w → State.AboutToRun { s with mem := m } w' →
    ∃ t u, step s = .next t ∧ step { s with mem := m } = .next u ∧
      ((t.pc.toNat = s.pc.toNat + 4 ∧ u.pc.toNat = s.pc.toNat + 2) ∨
       (t.pc.toNat = s.pc.toNat + 2 ∧ u.pc.toNat = s.pc.toNat + 4))

/-! ## Register load and add -/

/-- R190: after LD Vx,kk register Vx reads exactly kk, whatever it was; every other register and everything else is
unchanged, and PC is left at a + 2; its word is 6xkk. -/
def Obligations.LdImmediateLoadsTheRegister : Prop :=
  ∀ (x : Reg) (kk : Byte),
    (∀ s : State, ∃ t, exec (.ldImm x kk) s = .next t ∧ t.v[x] = kk ∧
      (∀ r : Reg, r ≠ x → t.v[r] = s.v[r]) ∧ t = { s with v := t.v }) ∧
    (∀ (s : State) (w : Word), w.toNat = 0x6000 + 0x100 * x.val + kk.toNat → s.AboutToRun w →
      ∃ t, step s = .next t ∧ t.v[x] = kk ∧ (∀ r : Reg, r ≠ x → t.v[r] = s.v[r]) ∧
        t.pc.toNat = s.pc.toNat + 2 ∧ t = { s with v := t.v, pc := t.pc })

/-- R191: after ADD Vx,kk register Vx is (V[x] + kk) mod 256; no other register, VF among them, no flag and nothing
else is touched, and PC is left at a + 2; its word is 7xkk. -/
def Obligations.AddImmediateWrapsAndSetsNoFlag : Prop :=
  ∀ (x : Reg) (kk : Byte),
    (∀ s : State, ∃ t, exec (.addImm x kk) s = .next t ∧ t.v[x].toNat = (s.v[x].toNat + kk.toNat) % 256 ∧
      (∀ r : Reg, r ≠ x → t.v[r] = s.v[r]) ∧ t = { s with v := t.v }) ∧
    (∀ (s : State) (w : Word), w.toNat = 0x7000 + 0x100 * x.val + kk.toNat → s.AboutToRun w →
      ∃ t, step s = .next t ∧ t.v[x].toNat = (s.v[x].toNat + kk.toNat) % 256 ∧
        (∀ r : Reg, r ≠ x → t.v[r] = s.v[r]) ∧
        t.pc.toNat = s.pc.toNat + 2 ∧ t = { s with v := t.v, pc := t.pc })

/-- R22: VF is an ordinary register: it changes only where an LD or an ADD names it, and LD VF and ADD VF do exactly what
the same instruction does on any other register: the named register gets kk, or its sum with kk modulo 256, every other
register keeps its value, and nothing else of the state changes; no instruction writes a flag into VF. -/
def Obligations.VfIsAnOrdinaryRegister : Prop :=
  (∀ (i : Instr) (s t : State), exec i s = .next t → t.v[(0xF : Reg)] ≠ s.v[(0xF : Reg)] →
    (∃ kk, i = .ldImm 0xF kk ∧ t.v[(0xF : Reg)] = kk) ∨
    (∃ kk, i = .addImm 0xF kk ∧ t.v[(0xF : Reg)].toNat = (s.v[(0xF : Reg)].toNat + kk.toNat) % 256)) ∧
  (∀ (x : Reg) (kk : Byte) (s : State), ∃ t u, exec (.ldImm 0xF kk) s = .next t ∧ exec (.ldImm x kk) s = .next u ∧
    t.v[(0xF : Reg)] = kk ∧ u.v[x] = kk ∧
    (∀ r : Reg, r ≠ 0xF → t.v[r] = s.v[r]) ∧ (∀ r : Reg, r ≠ x → u.v[r] = s.v[r]) ∧
    t = { s with v := t.v } ∧ u = { s with v := u.v }) ∧
  (∀ (x : Reg) (kk : Byte) (s : State), ∃ t u, exec (.addImm 0xF kk) s = .next t ∧ exec (.addImm x kk) s = .next u ∧
    t.v[(0xF : Reg)].toNat = (s.v[(0xF : Reg)].toNat + kk.toNat) % 256 ∧
    u.v[x].toNat = (s.v[x].toNat + kk.toNat) % 256 ∧
    (∀ r : Reg, r ≠ 0xF → t.v[r] = s.v[r]) ∧ (∀ r : Reg, r ≠ x → u.v[r] = s.v[r]) ∧
    t = { s with v := t.v } ∧ u = { s with v := u.v })

/-- Who touches the general registers (R21). An instruction changes V[r] only if it is LD or ADD of r. It neither reads
nor writes a register it does not select by x or y: with another value in one it does the same and leaves that value;
CLS, RET, JP and CALL select none. LD does not read V[x] either. No host operation but Step and Reset reads or writes a
general register. -/
def Obligations.GeneralRegistersAreTouchedOnlyWhereSelected : Prop :=
  (∀ (i : Instr) (s t : State) (r : Reg), exec i s = .next t → t.v[r] ≠ s.v[r] →
    ∃ kk, i = .ldImm r kk ∨ i = .addImm r kk) ∧
  (∀ (i : Instr) (s : State) (r : Reg) (b : Byte), r ∉ selectedRegs i →
    exec i { s with v := s.v.set r b } = onNext (fun t => { t with v := t.v.set r b }) (exec i s)) ∧
  (∀ (i : Instr) (s : State) (v : Vector Byte 16), selectedRegs i = [] →
    exec i { s with v := v } = onNext (fun t => { t with v := v }) (exec i s)) ∧
  (∀ (x : Reg) (kk : Byte) (s : State) (b : Byte),
    exec (.ldImm x kk) { s with v := s.v.set x b } = exec (.ldImm x kk) s) ∧
  (∀ (g : GlyphTable) (op : HostOp) (u : Session) (v : Vector Byte 16), op ≠ .reset → op ≠ .step →
    hostOp g op (u.onMachine fun s => { s with v := v }) =
      onNext (fun p => (p.1.onMachine fun s => { s with v := v }, p.2)) (hostOp g op u))

/-! ## Frames -/

/-- The frame of LD Vx,kk and ADD Vx,kk: everything but V[x], PC included (it stays at a + 2), is unchanged. -/
def Obligations.FrameOfLoadAndAdd : Prop :=
  ∀ (i : Instr) (x : Reg) (kk : Byte) (s t : State), (i = .ldImm x kk ∨ i = .addImm x kk) → exec i s = .next t →
    (∀ r : Reg, r ≠ x → t.v[r] = s.v[r]) ∧ t.i = s.i ∧ t.pc = s.pc ∧ t.sp = s.sp ∧ t.stack = s.stack ∧
    t.dt = s.dt ∧ t.keys = s.keys ∧ t.disp = s.disp ∧ t.halt = s.halt ∧ t.fault = s.fault ∧
    ∀ a : Nat, t.mem.read a = s.mem.read a

/-- The frame of JP and the three skips: everything but PC is unchanged. -/
def Obligations.FrameOfJumpAndSkips : Prop :=
  ∀ (i : Instr) (s t : State),
    ((∃ nnn, i = .jp nnn) ∨ (∃ x kk, i = .seImm x kk) ∨ (∃ x kk, i = .sneImm x kk) ∨ ∃ x y, i = .seReg x y) →
    exec i s = .next t →
    (∀ r : Reg, t.v[r] = s.v[r]) ∧ t.i = s.i ∧ t.sp = s.sp ∧ t.stack = s.stack ∧ t.dt = s.dt ∧
    t.keys = s.keys ∧ t.disp = s.disp ∧ t.halt = s.halt ∧ t.fault = s.fault ∧
    ∀ a : Nat, t.mem.read a = s.mem.read a

/-- The frame of CLS: everything but DISP is unchanged. -/
def Obligations.FrameOfCls : Prop :=
  ∀ s t : State, exec .cls s = .next t →
    (∀ r : Reg, t.v[r] = s.v[r]) ∧ t.i = s.i ∧ t.pc = s.pc ∧ t.sp = s.sp ∧ t.stack = s.stack ∧ t.dt = s.dt ∧
    t.keys = s.keys ∧ t.halt = s.halt ∧ t.fault = s.fault ∧ ∀ a : Nat, t.mem.read a = s.mem.read a

/-- The frame of CALL and RET, the entry of their faults included: no general register, I, DT, key, cell of DISP or byte
of memory changes; RET changes no stack entry and CALL none but entry SP; HALT and FAULT change only where the fault is
raised (RET with SP = 0, CALL with SP = 16), and there SP, STACK and PC stay. The entry of a fault is the spec's own
choice: D3 for the check before any write, D5 for the PC, which keeps the a + 2 the handler was given (log entry 9). -/
def Obligations.FrameOfCallAndRet : Prop :=
  ∀ (i : Instr) (s t : State), (i = .ret ∨ ∃ nnn, i = .call nnn) → exec i s = .next t →
    (∀ r : Reg, t.v[r] = s.v[r]) ∧ t.i = s.i ∧ t.dt = s.dt ∧ t.keys = s.keys ∧ t.disp = s.disp ∧
    (∀ a : Nat, t.mem.read a = s.mem.read a) ∧
    (i = .ret → t.stack = s.stack) ∧ (∀ j : Fin 16, j.val ≠ s.sp.toNat → t.stack[j] = s.stack[j]) ∧
    ((i = .ret ∧ s.sp = 0 ∨ i ≠ .ret ∧ s.sp = 16) → t.sp = s.sp ∧ t.stack = s.stack ∧ t.pc = s.pc) ∧
    (¬(i = .ret ∧ s.sp = 0 ∨ i ≠ .ret ∧ s.sp = 16) → t.halt = s.halt ∧ t.fault = s.fault)

/-! ## Faults -/

/-- UnknownOpcode (R252, R258, R128; decisions D2, D5, D6; log entry 9): raised exactly on a fetched word that is no
instruction; HALT and FAULT are written, PC is a + 2, nothing else changes. -/
def Obligations.UnknownOpcodeHaltsTheMachine : Prop :=
  (∀ (s : State) (w : Word), s.AboutToRun w → decode w = none →
    (s.pc + 2).toNat = s.pc.toNat + 2 ∧
    step s = .next { s with pc := s.pc + 2, halt := true, fault := ⟨.unknownOpcode, s.pc, w⟩ }) ∧
  (∀ s t : State, s.halt = false → step s = .next t → t.halt = true →
    (t.fault.cause = .unknownOpcode ↔ ∃ w, s.AboutToRun w ∧ decode w = none))

/-- StackOverflow (R253, R258, R128; decisions D3, D5, D6; log entry 9): CALL with SP = 16, and only that, raises it; HALT
and FAULT are written, PC is a + 2, nothing is pushed and nothing else changes. -/
def Obligations.CallOnFullStackHaltsTheMachine : Prop :=
  (∀ (nnn : Addr) (s : State) (w : Word), w.toNat = 0x2000 + nnn.toNat → s.AboutToRun w → s.sp = 16 →
    step s = .next { s with pc := s.pc + 2, halt := true, fault := ⟨.stackOverflow, s.pc, w⟩ }) ∧
  (∀ s t : State, s.halt = false → step s = .next t → t.halt = true →
    (t.fault.cause = .stackOverflow ↔ (∃ nnn, s.AboutToRun (encode (.call nnn))) ∧ s.sp = 16))

/-- StackUnderflow (R254, R258, R128; decisions D3, D5, D6; log entry 9): RET with SP = 0, and only that, raises it; HALT
and FAULT are written, PC is a + 2, SP stays 0 and nothing else changes. -/
def Obligations.RetOnEmptyStackHaltsTheMachine : Prop :=
  (∀ s : State, s.AboutToRun 0x00EE → s.sp = 0 →
    step s = .next { s with pc := s.pc + 2, halt := true, fault := ⟨.stackUnderflow, s.pc, 0x00EE⟩ }) ∧
  (∀ s t : State, s.halt = false → step s = .next t → t.halt = true →
    (t.fault.cause = .stackUnderflow ↔ s.AboutToRun 0x00EE ∧ s.sp = 0))

/-- FetchOutOfRange (R255, R258, R69; decision D4; log entry 9): a Step of a running machine with PC > 0xFFE, and only
such a Step, raises it; it records no word, leaves PC as it is, and changes nothing but HALT and FAULT. -/
def Obligations.FetchBeyondMemoryHaltsTheMachine : Prop :=
  (∀ s : State, s.fetchWord = none ↔ 0xFFE < s.pc.toNat) ∧
  (∀ s : State, s.halt = false → 0xFFE < s.pc.toNat →
    step s = .next { s with halt := true, fault := ⟨.fetchOutOfRange, s.pc, 0x0000⟩ }) ∧
  (∀ s t : State, s.halt = false → step s = .next t → t.halt = true →
    (t.fault.cause = .fetchOutOfRange ↔ 0xFFE < s.pc.toNat))

/-- The Step that raises a fault, and no other, reports its record to the driver (R235, R258; that a fault sets HALT and
fills a record is the spec's own choice, D6, log entry 9). The reply for a Step on
a halted machine is the model's own reading: log entry 6. -/
def Obligations.FaultIsReportedToTheDriverOnce : Prop :=
  ∀ (u : Session) (t : State), step u.machine = .next t →
    (u.machine.halt = false ∧ t.halt = true → hostStep u = .next (⟨t, .running⟩, .faulted t.fault)) ∧
    (u.machine.halt = true ∨ t.halt = false → hostStep u = .next (⟨t, .running⟩, .done))

/-- HALT is sticky (R259, decision D7): if HALT is 0 after k Steps, then no Step of the run ended in a fault. -/
def Obligations.RunThatEndsUnhaltedHadNoFault : Prop :=
  ∀ (k : Nat) (s t : State), Host.Core.run core k s = .next t → t.halt = false → s.RunsCleanly k

/-! ## Invariants -/

/-- The state after Reset meets the invariant. Its HALT and FAULT are the spec's own choice, D6 (log entry 7). -/
def Obligations.ResetMeetsTheInvariant : Prop := State.reset.Inv

/-- Every Step keeps the invariant: canonical memory, PC at most 0x1002 (R25), SP 0 to 16 (R26), every live stack entry
0x0002 to 0x1000 (R28), and HALT and FAULT in agreement (R251, R258); the spec marks these ranges as derived, and what
a fault leaves as its own choice, D2 to D7 (log entry 9). -/
def Obligations.StepKeepsTheInvariant : Prop :=
  ∀ s t : State, s.Inv → step s = .next t → t.Inv

/-- Every host operation keeps the invariant, for every glyph table. What a fault leaves is the spec's own choice, D2 to
D7 (log entry 9), and so is Reset at any time, D19 (log entry 7). -/
def Obligations.HostOperationsKeepTheInvariant : Prop :=
  ∀ (g : GlyphTable) (op : HostOp) (u u' : Session) (reply : Reply),
    u.machine.Inv → hostOp g op u = .next (u', reply) → u'.machine.Inv

/-- Every host operation, from every session whose machine meets the invariant and has DT 0 and every cell of DISP off,
ends in no model fault, and the session it gives meets the same (R29, R31, which the spec marks as derived; that Reset
gives 0 and off is decision D8, log entry 7). So over every schedule from Reset no operation ends in a model fault, and
a schedule that is not refused ends in such a session, every operation with its reply. -/
def Obligations.EveryScheduleFromResetStaysSane : Prop :=
  (∀ (g : GlyphTable) (op : HostOp) (u : Session), u.machine.Inv → u.machine.Quiet →
    (∀ r, hostOp g op u ≠ .fault r) ∧
    ∀ u' reply, hostOp g op u = .next (u', reply) → u'.machine.Inv ∧ u'.machine.Quiet) ∧
  (∀ (g : GlyphTable) (ops : List HostOp),
    (∀ r, hostRun g ops Session.reset ≠ .fault r) ∧
    ∀ u replies, hostRun g ops Session.reset = .next (u, replies) →
      u.machine.Inv ∧ u.machine.Quiet ∧ replies.length = ops.length)

/-- DISP is written by CLS and by nothing else that a Step does (R31, R37). -/
def Obligations.DisplayIsWrittenOnlyByCls : Prop :=
  ∀ s t : State, step s = .next t → t.disp ≠ s.disp →
    s.AboutToRun 0x00E0 ∧ ∀ (y : Fin 32) (x : Fin 64), t.pixel y x = false

/-! ## What is neither read nor written -/

/-- R23: no instruction and no host operation (Reset apart, which gives I its reset value) reads or writes I: with
another value in I they do the same, and leave that value. -/
def Obligations.IndexRegisterIsNeitherReadNorWritten : Prop :=
  ∀ (g : GlyphTable) (op : HostOp) (u : Session) (i : Word), op ≠ .reset →
    hostOp g op (u.onMachine fun s => { s with i := i }) =
      onNext (fun p => (p.1.onMachine fun s => { s with i := i }, p.2)) (hostOp g op u)

/-- R30: the sixteen key flags are written by SetKey only (and by Reset), and no instruction or other host operation
reads them. -/
def Obligations.KeyFlagsAreTouchedOnlyBySetKey : Prop :=
  ∀ (g : GlyphTable) (op : HostOp) (u : Session) (keys : Vector Bool 16), op ≠ .reset →
    (∀ index pressed, op ≠ .setKey index pressed) →
    hostOp g op (u.onMachine fun s => { s with keys := keys }) =
      onNext (fun p => (p.1.onMachine fun s => { s with keys := keys }, p.2)) (hostOp g op u)

/-- DT is read and written by TickTimer only (and written by Reset): R29's second and third sentence. -/
def Obligations.TimerIsTouchedOnlyByTickTimer : Prop :=
  ∀ (g : GlyphTable) (op : HostOp) (u : Session) (dt : Byte), op ≠ .reset → op ≠ .tickTimer →
    hostOp g op (u.onMachine fun s => { s with dt := dt }) =
      onNext (fun p => (p.1.onMachine fun s => { s with dt := dt }, p.2)) (hostOp g op u)

/-! ## Host operations -/

/-- R232: Load of an image that fits puts byte k at 0x200 + k and the glyph table at 0x050, leaves every other cell,
and touches nothing but MEM; the empty image is legal and installs the table alone. -/
def Obligations.LoadPlacesImageAndGlyphTable : Prop :=
  ∀ (g : GlyphTable) (bytes : List Byte) (s : State), s.mem.wf = true → bytes.length ≤ 3584 →
    ∃ t, loadWith g bytes s = some t ∧
      (∀ (k : Nat) (h : k < bytes.length), t.mem.read (0x200 + k) = bytes[k]) ∧
      (∀ (k : Nat) (h : k < 80), t.mem.read (0x50 + k) = g[k]) ∧
      (∀ a : Nat, ¬(0x50 ≤ a ∧ a < 0xA0) → ¬(0x200 ≤ a ∧ a < 0x200 + bytes.length) →
        t.mem.read a = s.mem.read a) ∧
      t = { s with mem := t.mem } ∧
      ∀ u : Session, u.machine = s → u.phase = .fresh →
        hostOp g (.load bytes) u = .next (⟨t, .loaded⟩, .done)

/-- R65: Load copies byte for byte, and the first byte of IMAGE is the high byte of the first instruction, whether or
not a second byte follows it. -/
def Obligations.FirstImageByteIsTheHighByte : Prop :=
  ∀ (g : GlyphTable) (hi : Byte) (rest : List Byte), (hi :: rest).length ≤ 3584 →
    ∃ t w, loadWith g (hi :: rest) State.reset = some t ∧ t.fetchWord = some w ∧
      w.toNat / 256 = hi.toNat ∧ (∀ lo more, rest = lo :: more → w.toNat % 256 = lo.toNat) ∧
      ∀ (k : Nat) (h : k < (hi :: rest).length), t.mem.read (0x200 + k) = (hi :: rest)[k]

/-- An oversized image is LoadError and changes nothing, the glyph table included (R233; decision D13), and a failed
Load does not count, so that another may follow (R234; decision D12). -/
def Obligations.OversizedLoadChangesNothing : Prop :=
  ∀ (g : GlyphTable) (bytes : List Byte) (u : Session), 3584 < bytes.length → u.phase = .fresh →
    hostOp g (.load bytes) u = .next (u, .loadError)

/-- One successful Load per Reset, before the first Step; any other is refused (R234; decision D12). By phase: a session
that has been loaded, or has made a Step, refuses every Load (an oversized image among them, which is the model's own
order: log entry 13); Reset gives a fresh session, a Step a running one, a successful Load, which only a fresh session
answers, a loaded one, and nothing else changes the phase. So a schedule that starts in a session that is not fresh and
has no Reset in it contains no Load that is answered, whatever stands between. -/
def Obligations.LoadHappensOnceBeforeTheFirstStep : Prop :=
  (∀ (g : GlyphTable) (bytes : List Byte) (u : Session),
    (u.phase = .loaded → hostOp g (.load bytes) u = .refused .loadTwice) ∧
    (u.phase = .running → hostOp g (.load bytes) u = .refused .loadAfterStep)) ∧
  (∀ (g : GlyphTable) (op : HostOp) (u u' : Session) (reply : Reply), hostOp g op u = .next (u', reply) →
    (op = .reset → u'.phase = .fresh) ∧ (op = .step → u'.phase = .running) ∧
    (∀ bytes, op = .load bytes →
      u.phase = .fresh ∧ (reply = .done → u'.phase = .loaded) ∧ (reply ≠ .done → u' = u)) ∧
    (op ≠ .reset → op ≠ .step → (∀ bytes, op ≠ .load bytes) → u'.phase = u.phase)) ∧
  (∀ (g : GlyphTable) (ops : List HostOp) (u u' : Session) (replies : List Reply),
    hostRun g ops u = .next (u', replies) → u.phase ≠ .fresh → HostOp.reset ∉ ops →
    u'.phase ≠ .fresh ∧ ∀ bytes, HostOp.load bytes ∉ ops)

/-- TickTimer: DT minus 1, floored at 0, whether or not HALT is set; nothing else (R236; decision D14 for HALT). -/
def Obligations.TickTimerCountsDownToZero : Prop :=
  ∀ (g : GlyphTable) (u : Session), ∃ t, hostOp g .tickTimer u = .next ({ u with machine := t }, .done) ∧
    t.dt.toNat = u.machine.dt.toNat - 1 ∧ t = { u.machine with dt := t.dt }

/-- SetKey: one flag and nothing else, whether or not HALT is set; an index outside 0 to 15 is refused (R237; decision
D14). -/
def Obligations.SetKeySetsOneFlag : Prop :=
  ∀ (g : GlyphTable) (u : Session) (pressed : Bool),
    (∀ index : Fin 16, ∃ t, hostOp g (.setKey index.val pressed) u = .next ({ u with machine := t }, .done) ∧
      (∀ k : Fin 16, t.keys[k] = if k = index then pressed else u.machine.keys[k]) ∧
      t = { u.machine with keys := t.keys }) ∧
    (∀ index : Nat, 16 ≤ index → hostOp g (.setKey index pressed) u = .refused .keyIndexOutOfRange)

/-- R238: ReadDisplay returns the 2048 cells as they are at that point and changes no state. -/
def Obligations.ReadDisplayIsASnapshot : Prop :=
  ∀ (g : GlyphTable) (u : Session), ∃ grid, hostOp g .readDisplay u = .next (u, .display grid) ∧
    ∀ (y : Fin 32) (x : Fin 64), grid[y][x] = u.machine.pixel y x
end

