-- ==== Sys2Proof/Laws/Decode.lean ====
section
/-! SUPPORT. The laws of bytes, words and fields that claims about fetch, decode and encode rest on: a word is its two
bytes, and each field is the number the spec's bit positions give. -/

namespace Sys2Proof

/-! ## Bytes and words -/

/-- `w = MEM[a] ++ MEM[a+1]` as numbers. -/
theorem joinBytes_toNat (hi lo : Byte) : (joinBytes hi lo).toNat = 256 * hi.toNat + lo.toNat := by
  unfold joinBytes
  rw [BitVec.toNat_append, Nat.shiftLeft_eq, Nat.mul_comm hi.toNat, ← Nat.two_pow_add_eq_or_of_lt lo.isLt]

theorem highByte_toNat (w : Word) : (highByte w).toNat = w.toNat / 256 := by
  have := w.isLt
  simp [highByte, BitVec.extractLsb'_toNat, Nat.shiftRight_eq_div_pow]
  omega

theorem lowByte_toNat (w : Word) : (lowByte w).toNat = w.toNat % 256 := by
  simp [lowByte]

@[simp] theorem highByte_joinBytes (hi lo : Byte) : highByte (joinBytes hi lo) = hi := by
  apply BitVec.eq_of_toNat_eq
  have := hi.isLt
  have := lo.isLt
  rw [highByte_toNat, joinBytes_toNat]
  omega

@[simp] theorem lowByte_joinBytes (hi lo : Byte) : lowByte (joinBytes hi lo) = lo := by
  apply BitVec.eq_of_toNat_eq
  have := lo.isLt
  rw [lowByte_toNat, joinBytes_toNat]
  omega

@[simp] theorem joinBytes_bytes (w : Word) : joinBytes (highByte w) (lowByte w) = w := by
  apply BitVec.eq_of_toNat_eq
  rw [joinBytes_toNat, highByte_toNat, lowByte_toNat]
  omega

/-- Bytes join to a word exactly when they are its two bytes. -/
theorem joinBytes_eq_iff {hi lo : Byte} {w : Word} : joinBytes hi lo = w ↔ hi = highByte w ∧ lo = lowByte w := by
  constructor
  · rintro rfl; simp
  · rintro ⟨rfl, rfl⟩; simp

/-- The decoder asked about a row of the opcode table is the one a Step uses. -/
theorem decodeTableWord_eq (w : Word) : decodeTableWord 16 w.toNat = decode w := by
  have hlt := w.isLt
  have hmod : w.toNat % 2 ^ 16 = w.toNat := Nat.mod_eq_of_lt hlt
  have hhi : BitVec.ofNat 8 (w.toNat / 256) = highByte w := by
    apply BitVec.eq_of_toNat_eq
    rw [highByte_toNat, BitVec.toNat_ofNat]
    omega
  have hlo : BitVec.ofNat 8 w.toNat = lowByte w := by
    apply BitVec.eq_of_toNat_eq
    rw [lowByte_toNat, BitVec.toNat_ofNat]
  have hfits : w.toNat < 0x10000 := hlt
  simp only [decodeTableWord, hmod, hfits, if_true, hhi, hlo, decodeBytes, joinBytes_bytes]
  cases decode w <;> rfl

/-! ## The word of an instruction as a number -/

/-- Concatenation puts the left part above the right one. -/
theorem append_toNat {m n : Nat} (a : BitVec m) (b : BitVec n) : (a ++ b).toNat = a.toNat * 2 ^ n + b.toNat := by
  rw [BitVec.toNat_append, Nat.shiftLeft_eq, Nat.mul_comm, ← Nat.two_pow_add_eq_or_of_lt b.isLt]

@[simp] theorem regBits_toNat (r : Reg) : (regBits r).toNat = r.val := rfl

theorem encode_jp_toNat (nnn : Addr) : (encode (.jp nnn)).toNat = 0x1000 + nnn.toNat := by
  change (0x1#4 ++ nnn).toNat = _
  rw [append_toNat]; rfl

theorem encode_call_toNat (nnn : Addr) : (encode (.call nnn)).toNat = 0x2000 + nnn.toNat := by
  change (0x2#4 ++ nnn).toNat = _
  rw [append_toNat]; rfl

/-- The number of a format XK word, for any opcode nibble. -/
theorem formatXK_toNat (op : BitVec 4) (x : Reg) (kk : Byte) :
    (op ++ regBits x ++ kk).toNat = 0x1000 * op.toNat + 0x100 * x.val + kk.toNat := by
  rw [append_toNat, append_toNat, regBits_toNat]; omega

theorem encode_seImm_toNat (x : Reg) (kk : Byte) :
    (encode (.seImm x kk)).toNat = 0x3000 + 0x100 * x.val + kk.toNat := formatXK_toNat 0x3 x kk

theorem encode_sneImm_toNat (x : Reg) (kk : Byte) :
    (encode (.sneImm x kk)).toNat = 0x4000 + 0x100 * x.val + kk.toNat := formatXK_toNat 0x4 x kk

theorem encode_ldImm_toNat (x : Reg) (kk : Byte) :
    (encode (.ldImm x kk)).toNat = 0x6000 + 0x100 * x.val + kk.toNat := formatXK_toNat 0x6 x kk

theorem encode_addImm_toNat (x : Reg) (kk : Byte) :
    (encode (.addImm x kk)).toNat = 0x7000 + 0x100 * x.val + kk.toNat := formatXK_toNat 0x7 x kk

theorem encode_seReg_toNat (x y : Reg) :
    (encode (.seReg x y)).toNat = 0x5000 + 0x100 * x.val + 0x10 * y.val := by
  change (0x5#4 ++ regBits x ++ regBits y ++ 0x0#4).toNat = _
  rw [append_toNat, append_toNat, append_toNat, regBits_toNat, regBits_toNat]
  change ((5 * 2 ^ 4 + x.val) * 2 ^ 4 + y.val) * 2 ^ 4 + 0 = _
  omega

/-! ## Masks of the opcode map -/

/-- Masking with F000 keeps the leading nibble. -/
theorem and_F000_toNat (w : Word) : (w &&& 0xF000#16).toNat = w.toNat / 4096 * 4096 := by
  have hshift : w &&& 0xF000#16 = (w >>> 12) <<< 12 := by
    ext k hk
    interval_cases k <;> simp
  rw [hshift, BitVec.toNat_shiftLeft, BitVec.toNat_ushiftRight, Nat.shiftLeft_eq, Nat.shiftRight_eq_div_pow]
  have := w.isLt
  omega

/-- Masking with 000F keeps the low nibble. -/
theorem and_000F_toNat (w : Word) : (w &&& 0x000F#16).toNat = w.toNat % 16 := by
  rw [BitVec.toNat_and]
  exact Nat.and_two_pow_sub_one_eq_mod w.toNat 4

/-- Masking with F00F keeps the leading and the low nibble. -/
theorem and_F00F_toNat (w : Word) : (w &&& 0xF00F#16).toNat = w.toNat / 4096 * 4096 + w.toNat % 16 := by
  have hsplit : w &&& 0xF00F#16 = (w &&& 0xF000#16) + (w &&& 0x000F#16) := by
    rw [BitVec.add_eq_or_of_and_eq_zero]
    · ext k hk
      interval_cases k <;> simp
    · ext k hk
      interval_cases k <;> simp
  have := w.isLt
  rw [hsplit, BitVec.toNat_add, and_F000_toNat, and_000F_toNat]
  omega

/-! ## Fields as numbers -/

theorem familyField_toNat (w : Word) : (familyField w).toNat = w.toNat / 4096 := by
  have := w.isLt
  simp [familyField, BitVec.extractLsb'_toNat, Nat.shiftRight_eq_div_pow]
  omega

theorem xField_val (w : Word) : (xField w).val = w.toNat / 256 % 16 := by
  simp [xField, Nat.shiftRight_eq_div_pow]

theorem yField_val (w : Word) : (yField w).val = w.toNat / 16 % 16 := by
  simp [yField, Nat.shiftRight_eq_div_pow]

theorem lowNibble_toNat (w : Word) : (lowNibble w).toNat = w.toNat % 16 := by
  simp [lowNibble]

theorem kkField_toNat (w : Word) : (kkField w).toNat = w.toNat % 256 := by
  simp [kkField]

theorem nnnField_toNat (w : Word) : (nnnField w).toNat = w.toNat % 4096 := by
  simp [nnnField]

end Sys2Proof
end

