-- ==== Sys2Proof/Laws/Memory.lean ====
section
/-! SUPPORT. The laws of memory: a read after a write, the canonical form kept by every operation, equal memories as
equal data, and what the range-checked primitives of 20_memory.md R66 and the copy loop of Load do. -/

namespace Sys2Proof.Machine

namespace Memory

/-! ## The canonical form -/

@[simp] theorem wfFrom_nil (lo : Nat) : wfFrom lo [] = true := rfl

theorem wfFrom_cons {lo k : Nat} {u : Byte} {rest : Memory} :
    wfFrom lo ((k, u) :: rest) = true ↔ lo ≤ k ∧ k < 4096 ∧ u ≠ 0#8 ∧ wfFrom (k + 1) rest = true := by
  simp [wfFrom, and_assoc]

theorem wfFrom_mono {lo lo' : Nat} (hle : lo ≤ lo') : ∀ {m : Memory}, wfFrom lo' m = true → wfFrom lo m = true
  | [], _ => rfl
  | (_, _) :: _, h => by
    rw [wfFrom_cons] at h ⊢
    exact ⟨by omega, h.2⟩

/-- Below the first possible address every cell reads as an unlisted one. -/
theorem read_below {lo a : Nat} (hlt : a < lo) : ∀ {m : Memory}, wfFrom lo m = true → m.read a = 0#8
  | [], _ => rfl
  | (k, _) :: _, h => by
    obtain ⟨hk, -, -, hr⟩ := wfFrom_cons.1 h
    have hne : a ≠ k := by omega
    simp only [read, hne, if_false]
    exact read_below (by omega) hr

/-- Outside MEM no cell is listed. -/
theorem read_outside {lo a : Nat} (hge : 4096 ≤ a) : ∀ {m : Memory}, wfFrom lo m = true → m.read a = 0#8
  | [], _ => rfl
  | (k, _) :: _, h => by
    obtain ⟨-, hk, -, hr⟩ := wfFrom_cons.1 h
    have hne : a ≠ k := by omega
    simp only [read, hne, if_false]
    exact read_outside hge hr

/-! ## Read after write -/

/-- A cell reads as what was last written to it. -/
theorem read_write_same {lo a : Nat} (v : Byte) :
    ∀ {m : Memory}, wfFrom lo m = true → (m.write a v).read a = v
  | [], _ => by
    by_cases hv : v = 0#8 <;> simp [write, read, hv]
  | (k, u) :: rest, h => by
    obtain ⟨-, -, -, hr⟩ := wfFrom_cons.1 h
    by_cases hlt : a < k
    · by_cases hv : v = 0#8
      · have hne : a ≠ k := by omega
        simp [write, read, hlt, hv, hne, read_below (by omega : a < k + 1) hr]
      · simp [write, read, hlt, hv]
    · by_cases heq : a = k
      · by_cases hv : v = 0#8
        · simp [write, heq, hv, read_below (Nat.lt_succ_self k) hr]
        · simp [write, read, heq, hv]
      · simp [write, read, hlt, heq, read_write_same v hr]

/-- A write leaves every other cell alone. -/
theorem read_write_other {a b : Nat} (v : Byte) (hne : b ≠ a) : ∀ m : Memory, (m.write a v).read b = m.read b
  | [] => by
    by_cases hv : v = 0#8 <;> simp [write, read, hv, hne]
  | (k, u) :: rest => by
    by_cases hlt : a < k
    · by_cases hv : v = 0#8 <;> simp [write, read, hlt, hv, hne]
    · by_cases heq : a = k
      · subst heq
        by_cases hv : v = 0#8 <;> simp [write, read, hv, hne]
      · simp [write, read, hlt, heq, read_write_other v hne rest]

theorem read_write {m : Memory} (h : m.wf = true) (a b : Nat) (v : Byte) :
    (m.write a v).read b = if b = a then v else m.read b := by
  split
  · subst_vars; exact read_write_same v h
  · exact read_write_other v ‹_› m

/-- A write inside MEM keeps the canonical form. -/
theorem write_wfFrom {lo a : Nat} (v : Byte) (hlo : lo ≤ a) (ha : a < 4096) :
    ∀ {m : Memory}, wfFrom lo m = true → wfFrom lo (m.write a v) = true
  | [], _ => by
    by_cases hv : v = 0#8
    · simp [write, hv]
    · simp [write, wfFrom, hv, hlo, ha]
  | (k, u) :: rest, h => by
    obtain ⟨hk, hk', hu, hr⟩ := wfFrom_cons.1 h
    by_cases hlt : a < k
    · by_cases hv : v = 0#8
      · simp only [write, hlt, hv, if_true]; exact h
      · simp only [write, hlt, if_true, hv, if_false]
        exact wfFrom_cons.2 ⟨hlo, ha, hv, wfFrom_cons.2 ⟨hlt, hk', hu, hr⟩⟩
    · by_cases heq : a = k
      · by_cases hv : v = 0#8
        · simp only [write, heq, hv, if_true, if_false, Nat.lt_irrefl]
          exact wfFrom_mono (by omega) hr
        · simp only [write, heq, hv, if_true, if_false, Nat.lt_irrefl]
          exact wfFrom_cons.2 ⟨hk, hk', hv, hr⟩
      · simp only [write, hlt, heq, if_false]
        exact wfFrom_cons.2 ⟨hk, hk', hu, write_wfFrom v (by omega) ha hr⟩

theorem write_wf {m : Memory} {a : Nat} (v : Byte) (ha : a < 4096) (h : m.wf = true) : (m.write a v).wf = true :=
  write_wfFrom v (Nat.zero_le a) ha h

/-! ## Equal memories are equal data -/

theorem eq_of_read_eq_from : ∀ {lo : Nat} {m n : Memory}, wfFrom lo m = true → wfFrom lo n = true →
    (∀ a, m.read a = n.read a) → m = n
  | _, [], [], _, _, _ => rfl
  | _, [], (k, u) :: rest, _, hn, hread => by
    have := hread k
    simp [read] at this
    exact absurd this.symm (wfFrom_cons.1 hn).2.2.1
  | _, (k, u) :: rest, [], hm, _, hread => by
    have := hread k
    simp [read] at this
    exact absurd this (wfFrom_cons.1 hm).2.2.1
  | lo, (k, u) :: rest, (k', u') :: rest', hm, hn, hread => by
    obtain ⟨-, -, hu, hr⟩ := wfFrom_cons.1 hm
    obtain ⟨-, -, hu', hr'⟩ := wfFrom_cons.1 hn
    have hkk : k = k' := by
      rcases Nat.lt_trichotomy k k' with hlt | heq | hlt
      · have h1 := hread k
        have hne : k ≠ k' := by omega
        simp [read, hne, read_below (by omega : k < k' + 1) hr'] at h1
        exact absurd h1 hu
      · exact heq
      · have h1 := hread k'
        have hne : k' ≠ k := by omega
        simp [read, hne, read_below (by omega : k' < k + 1) hr] at h1
        exact absurd h1.symm hu'
    subst hkk
    have huu : u = u' := by simpa [read] using hread k
    subst huu
    have htail : rest = rest' := eq_of_read_eq_from hr hr' (fun a => by
      by_cases ha : a = k
      · subst ha
        rw [read_below (Nat.lt_succ_self a) hr, read_below (Nat.lt_succ_self a) hr']
      · simpa [read, ha] using hread a)
    rw [htail]

/-- Two memories in canonical form that read alike are the same data. -/
theorem eq_of_read_eq {m n : Memory} (hm : m.wf = true) (hn : n.wf = true) (h : ∀ a, m.read a = n.read a) :
    m = n :=
  eq_of_read_eq_from hm hn h

end Memory

/-! ## The range-checked primitives -/

theorem memRead1_eq_some {m : Memory} {a : Nat} {b : Byte} :
    memRead1 m a = some b ↔ a ≤ 0xFFF ∧ m.read a = b := by
  simp [memRead1]

theorem memRead2_eq_some {m : Memory} {a : Nat} {w : Word} :
    memRead2 m a = some w ↔ a ≤ 0xFFE ∧ joinBytes (m.read a) (m.read (a + 1)) = w := by
  unfold memRead2
  split
  · have : a ≤ 0xFFE := by omega
    simp [this]
  · have : ¬ a ≤ 0xFFE := by omega
    simp [this]

theorem memRead2_eq_none {m : Memory} {a : Nat} : memRead2 m a = none ↔ 0xFFE < a := by
  simp [memRead2]; omega

theorem memWrite1_eq_some {m m' : Memory} {a : Nat} {v : Byte} :
    memWrite1 m a v = some m' ↔ a ≤ 0xFFF ∧ m' = m.write a v := by
  simp [memWrite1, eq_comm]

theorem memWrite2_eq_some {m m' : Memory} {a : Nat} {v : Word} :
    memWrite2 m a v = some m' ↔ a ≤ 0xFFE ∧ m' = (m.write a (highByte v)).write (a + 1) (lowByte v) := by
  unfold memWrite2
  split
  · have : a ≤ 0xFFE := by omega
    simp [this, eq_comm]
  · have : ¬ a ≤ 0xFFE := by omega
    simp [this]

/-- Every write primitive keeps the canonical form. -/
theorem memWrite1_wf {m m' : Memory} {a : Nat} {v : Byte} (h : m.wf = true) (hw : memWrite1 m a v = some m') :
    m'.wf = true := by
  obtain ⟨ha, rfl⟩ := memWrite1_eq_some.1 hw
  exact Memory.write_wf v (by omega) h

theorem memWrite2_wf {m m' : Memory} {a : Nat} {v : Word} (h : m.wf = true) (hw : memWrite2 m a v = some m') :
    m'.wf = true := by
  obtain ⟨ha, rfl⟩ := memWrite2_eq_some.1 hw
  exact Memory.write_wf _ (by omega) (Memory.write_wf _ (by omega) h)

/-! ## The copy loop of Load -/

/-- Byte writes that fit in MEM all succeed, keep the canonical form, put byte k at address a + k, and leave every
cell outside the range alone. -/
theorem memWriteBytes_spec : ∀ (bs : List Byte) {m : Memory} {a : Nat}, m.wf = true → a + bs.length ≤ 4096 →
    ∃ m', memWriteBytes m a bs = some m' ∧ m'.wf = true ∧
      (∀ k (hk : k < bs.length), m'.read (a + k) = bs[k]) ∧
      (∀ b, (b < a ∨ a + bs.length ≤ b) → m'.read b = m.read b)
  | [], m, a, h, _ => ⟨m, rfl, h, fun k hk => absurd hk (Nat.not_lt_zero k), fun _ _ => rfl⟩
  | b :: bs, m, a, h, hle => by
    simp only [List.length_cons] at hle
    have hw : memWrite1 m a b = some (m.write a b) := memWrite1_eq_some.2 ⟨by omega, rfl⟩
    obtain ⟨m', hm', hwf, hin, hout⟩ :=
      memWriteBytes_spec bs (a := a + 1) (Memory.write_wf (a := a) b (by omega) h) (by omega)
    refine ⟨m', by simp [memWriteBytes, hw, hm'], hwf, ?_, ?_⟩
    · intro k hk
      cases k with
      | zero =>
        rw [Nat.add_zero, hout a (Or.inl (Nat.lt_succ_self a)), Memory.read_write_same b h]
        rfl
      | succ k =>
        simp only [List.length_cons] at hk
        have := hin k (by omega)
        rw [show a + (k + 1) = a + 1 + k by omega, this]
        rfl
    · intro c hc
      simp only [List.length_cons] at hc
      rw [hout c (by omega), Memory.read_write_other b (by omega)]

end Sys2Proof.Machine
end

