-- ==== Sys2Proof/Laws/State.lean ====
section
/-! SUPPORT. What each field of State is after each shared update: one lemma per field per update, true by unfolding
once, so that no later proof unfolds a record update. -/

namespace Sys2Proof.Machine

variable (s : State)

/-! ## `State.setPc` -/

@[simp] theorem State.setPc_mem (target : Word) : (s.setPc target).mem = s.mem := rfl
@[simp] theorem State.setPc_v (target : Word) : (s.setPc target).v = s.v := rfl
@[simp] theorem State.setPc_i (target : Word) : (s.setPc target).i = s.i := rfl
@[simp] theorem State.setPc_pc (target : Word) : (s.setPc target).pc = target := rfl
@[simp] theorem State.setPc_sp (target : Word) : (s.setPc target).sp = s.sp := rfl
@[simp] theorem State.setPc_stack (target : Word) : (s.setPc target).stack = s.stack := rfl
@[simp] theorem State.setPc_dt (target : Word) : (s.setPc target).dt = s.dt := rfl
@[simp] theorem State.setPc_keys (target : Word) : (s.setPc target).keys = s.keys := rfl
@[simp] theorem State.setPc_disp (target : Word) : (s.setPc target).disp = s.disp := rfl
@[simp] theorem State.setPc_halt (target : Word) : (s.setPc target).halt = s.halt := rfl
@[simp] theorem State.setPc_fault (target : Word) : (s.setPc target).fault = s.fault := rfl

/-! ## `State.advancePc` -/

@[simp] theorem State.advancePc_mem : (s.advancePc).mem = s.mem := rfl
@[simp] theorem State.advancePc_v : (s.advancePc).v = s.v := rfl
@[simp] theorem State.advancePc_i : (s.advancePc).i = s.i := rfl
@[simp] theorem State.advancePc_pc : (s.advancePc).pc = s.pc + 2 := rfl
@[simp] theorem State.advancePc_sp : (s.advancePc).sp = s.sp := rfl
@[simp] theorem State.advancePc_stack : (s.advancePc).stack = s.stack := rfl
@[simp] theorem State.advancePc_dt : (s.advancePc).dt = s.dt := rfl
@[simp] theorem State.advancePc_keys : (s.advancePc).keys = s.keys := rfl
@[simp] theorem State.advancePc_disp : (s.advancePc).disp = s.disp := rfl
@[simp] theorem State.advancePc_halt : (s.advancePc).halt = s.halt := rfl
@[simp] theorem State.advancePc_fault : (s.advancePc).fault = s.fault := rfl

/-! ## `State.skipNext` -/

@[simp] theorem State.skipNext_mem : (s.skipNext).mem = s.mem := rfl
@[simp] theorem State.skipNext_v : (s.skipNext).v = s.v := rfl
@[simp] theorem State.skipNext_i : (s.skipNext).i = s.i := rfl
@[simp] theorem State.skipNext_pc : (s.skipNext).pc = s.pc + 2 := rfl
@[simp] theorem State.skipNext_sp : (s.skipNext).sp = s.sp := rfl
@[simp] theorem State.skipNext_stack : (s.skipNext).stack = s.stack := rfl
@[simp] theorem State.skipNext_dt : (s.skipNext).dt = s.dt := rfl
@[simp] theorem State.skipNext_keys : (s.skipNext).keys = s.keys := rfl
@[simp] theorem State.skipNext_disp : (s.skipNext).disp = s.disp := rfl
@[simp] theorem State.skipNext_halt : (s.skipNext).halt = s.halt := rfl
@[simp] theorem State.skipNext_fault : (s.skipNext).fault = s.fault := rfl

/-! ## `State.setSp` -/

@[simp] theorem State.setSp_mem (n : Byte) : (s.setSp n).mem = s.mem := rfl
@[simp] theorem State.setSp_v (n : Byte) : (s.setSp n).v = s.v := rfl
@[simp] theorem State.setSp_i (n : Byte) : (s.setSp n).i = s.i := rfl
@[simp] theorem State.setSp_pc (n : Byte) : (s.setSp n).pc = s.pc := rfl
@[simp] theorem State.setSp_sp (n : Byte) : (s.setSp n).sp = n := rfl
@[simp] theorem State.setSp_stack (n : Byte) : (s.setSp n).stack = s.stack := rfl
@[simp] theorem State.setSp_dt (n : Byte) : (s.setSp n).dt = s.dt := rfl
@[simp] theorem State.setSp_keys (n : Byte) : (s.setSp n).keys = s.keys := rfl
@[simp] theorem State.setSp_disp (n : Byte) : (s.setSp n).disp = s.disp := rfl
@[simp] theorem State.setSp_halt (n : Byte) : (s.setSp n).halt = s.halt := rfl
@[simp] theorem State.setSp_fault (n : Byte) : (s.setSp n).fault = s.fault := rfl

/-! ## `State.writeV` -/

@[simp] theorem State.writeV_mem (r : Reg) (value : Byte) : (s.writeV r value).mem = s.mem := rfl
@[simp] theorem State.writeV_v (r : Reg) (value : Byte) : (s.writeV r value).v = s.v.set r value := rfl
@[simp] theorem State.writeV_i (r : Reg) (value : Byte) : (s.writeV r value).i = s.i := rfl
@[simp] theorem State.writeV_pc (r : Reg) (value : Byte) : (s.writeV r value).pc = s.pc := rfl
@[simp] theorem State.writeV_sp (r : Reg) (value : Byte) : (s.writeV r value).sp = s.sp := rfl
@[simp] theorem State.writeV_stack (r : Reg) (value : Byte) : (s.writeV r value).stack = s.stack := rfl
@[simp] theorem State.writeV_dt (r : Reg) (value : Byte) : (s.writeV r value).dt = s.dt := rfl
@[simp] theorem State.writeV_keys (r : Reg) (value : Byte) : (s.writeV r value).keys = s.keys := rfl
@[simp] theorem State.writeV_disp (r : Reg) (value : Byte) : (s.writeV r value).disp = s.disp := rfl
@[simp] theorem State.writeV_halt (r : Reg) (value : Byte) : (s.writeV r value).halt = s.halt := rfl
@[simp] theorem State.writeV_fault (r : Reg) (value : Byte) : (s.writeV r value).fault = s.fault := rfl

/-! ## `State.clearDisplay` -/

@[simp] theorem State.clearDisplay_mem : (s.clearDisplay).mem = s.mem := rfl
@[simp] theorem State.clearDisplay_v : (s.clearDisplay).v = s.v := rfl
@[simp] theorem State.clearDisplay_i : (s.clearDisplay).i = s.i := rfl
@[simp] theorem State.clearDisplay_pc : (s.clearDisplay).pc = s.pc := rfl
@[simp] theorem State.clearDisplay_sp : (s.clearDisplay).sp = s.sp := rfl
@[simp] theorem State.clearDisplay_stack : (s.clearDisplay).stack = s.stack := rfl
@[simp] theorem State.clearDisplay_dt : (s.clearDisplay).dt = s.dt := rfl
@[simp] theorem State.clearDisplay_keys : (s.clearDisplay).keys = s.keys := rfl
@[simp] theorem State.clearDisplay_disp : (s.clearDisplay).disp = Display.off := rfl
@[simp] theorem State.clearDisplay_halt : (s.clearDisplay).halt = s.halt := rfl
@[simp] theorem State.clearDisplay_fault : (s.clearDisplay).fault = s.fault := rfl

/-! ## `State.raise` -/

@[simp] theorem State.raise_mem (cause : Cause) (a w : Word) : (s.raise cause a w).mem = s.mem := rfl
@[simp] theorem State.raise_v (cause : Cause) (a w : Word) : (s.raise cause a w).v = s.v := rfl
@[simp] theorem State.raise_i (cause : Cause) (a w : Word) : (s.raise cause a w).i = s.i := rfl
@[simp] theorem State.raise_pc (cause : Cause) (a w : Word) : (s.raise cause a w).pc = s.pc := rfl
@[simp] theorem State.raise_sp (cause : Cause) (a w : Word) : (s.raise cause a w).sp = s.sp := rfl
@[simp] theorem State.raise_stack (cause : Cause) (a w : Word) : (s.raise cause a w).stack = s.stack := rfl
@[simp] theorem State.raise_dt (cause : Cause) (a w : Word) : (s.raise cause a w).dt = s.dt := rfl
@[simp] theorem State.raise_keys (cause : Cause) (a w : Word) : (s.raise cause a w).keys = s.keys := rfl
@[simp] theorem State.raise_disp (cause : Cause) (a w : Word) : (s.raise cause a w).disp = s.disp := rfl
@[simp] theorem State.raise_halt (cause : Cause) (a w : Word) : (s.raise cause a w).halt = true := rfl
@[simp] theorem State.raise_fault (cause : Cause) (a w : Word) : (s.raise cause a w).fault = ⟨cause, a, w⟩ := rfl

/-! ## `State.raiseFetchOutOfRange` -/

@[simp] theorem State.raiseFetchOutOfRange_mem : (s.raiseFetchOutOfRange).mem = s.mem := rfl
@[simp] theorem State.raiseFetchOutOfRange_v : (s.raiseFetchOutOfRange).v = s.v := rfl
@[simp] theorem State.raiseFetchOutOfRange_i : (s.raiseFetchOutOfRange).i = s.i := rfl
@[simp] theorem State.raiseFetchOutOfRange_pc : (s.raiseFetchOutOfRange).pc = s.pc := rfl
@[simp] theorem State.raiseFetchOutOfRange_sp : (s.raiseFetchOutOfRange).sp = s.sp := rfl
@[simp] theorem State.raiseFetchOutOfRange_stack : (s.raiseFetchOutOfRange).stack = s.stack := rfl
@[simp] theorem State.raiseFetchOutOfRange_dt : (s.raiseFetchOutOfRange).dt = s.dt := rfl
@[simp] theorem State.raiseFetchOutOfRange_keys : (s.raiseFetchOutOfRange).keys = s.keys := rfl
@[simp] theorem State.raiseFetchOutOfRange_disp : (s.raiseFetchOutOfRange).disp = s.disp := rfl
@[simp] theorem State.raiseFetchOutOfRange_halt : (s.raiseFetchOutOfRange).halt = true := rfl
@[simp] theorem State.raiseFetchOutOfRange_fault : (s.raiseFetchOutOfRange).fault = ⟨.fetchOutOfRange, s.pc, 0⟩ := rfl

/-! ## `State.raiseUnknownOpcode` -/

@[simp] theorem State.raiseUnknownOpcode_mem (w : Word) : (s.raiseUnknownOpcode w).mem = s.mem := rfl
@[simp] theorem State.raiseUnknownOpcode_v (w : Word) : (s.raiseUnknownOpcode w).v = s.v := rfl
@[simp] theorem State.raiseUnknownOpcode_i (w : Word) : (s.raiseUnknownOpcode w).i = s.i := rfl
@[simp] theorem State.raiseUnknownOpcode_pc (w : Word) : (s.raiseUnknownOpcode w).pc = s.pc := rfl
@[simp] theorem State.raiseUnknownOpcode_sp (w : Word) : (s.raiseUnknownOpcode w).sp = s.sp := rfl
@[simp] theorem State.raiseUnknownOpcode_stack (w : Word) : (s.raiseUnknownOpcode w).stack = s.stack := rfl
@[simp] theorem State.raiseUnknownOpcode_dt (w : Word) : (s.raiseUnknownOpcode w).dt = s.dt := rfl
@[simp] theorem State.raiseUnknownOpcode_keys (w : Word) : (s.raiseUnknownOpcode w).keys = s.keys := rfl
@[simp] theorem State.raiseUnknownOpcode_disp (w : Word) : (s.raiseUnknownOpcode w).disp = s.disp := rfl
@[simp] theorem State.raiseUnknownOpcode_halt (w : Word) : (s.raiseUnknownOpcode w).halt = true := rfl
@[simp] theorem State.raiseUnknownOpcode_fault (w : Word) : (s.raiseUnknownOpcode w).fault = ⟨.unknownOpcode, s.pc - 2, w⟩ := rfl

/-! ## `State.skipIf` -/

@[simp] theorem State.skipIf_mem (c : Bool) : (s.skipIf c).mem = s.mem := by cases c <;> rfl
@[simp] theorem State.skipIf_v (c : Bool) : (s.skipIf c).v = s.v := by cases c <;> rfl
@[simp] theorem State.skipIf_i (c : Bool) : (s.skipIf c).i = s.i := by cases c <;> rfl
@[simp] theorem State.skipIf_pc (c : Bool) : (s.skipIf c).pc = if c then s.pc + 2 else s.pc := by cases c <;> rfl
@[simp] theorem State.skipIf_sp (c : Bool) : (s.skipIf c).sp = s.sp := by cases c <;> rfl
@[simp] theorem State.skipIf_stack (c : Bool) : (s.skipIf c).stack = s.stack := by cases c <;> rfl
@[simp] theorem State.skipIf_dt (c : Bool) : (s.skipIf c).dt = s.dt := by cases c <;> rfl
@[simp] theorem State.skipIf_keys (c : Bool) : (s.skipIf c).keys = s.keys := by cases c <;> rfl
@[simp] theorem State.skipIf_disp (c : Bool) : (s.skipIf c).disp = s.disp := by cases c <;> rfl
@[simp] theorem State.skipIf_halt (c : Bool) : (s.skipIf c).halt = s.halt := by cases c <;> rfl
@[simp] theorem State.skipIf_fault (c : Bool) : (s.skipIf c).fault = s.fault := by cases c <;> rfl

/-! ## The updates that may find no place to write -/

/-- `STACK[j] <- v` writes that entry and nothing else, and answers exactly where there is an entry j. -/
theorem State.setStackEntry_eq_some {j : Nat} {v : Word} {t : State} :
    s.setStackEntry j v = some t ↔ ∃ h : j < 16, t = { s with stack := s.stack.set j v h } := by
  unfold State.setStackEntry
  split <;> rename_i h
  · simp [h, eq_comm]
  · simp [h]

/-- `STACK[j]` answers exactly where there is an entry j. -/
theorem State.stackEntry_eq_some {j : Nat} {w : Word} :
    s.stackEntry j = some w ↔ ∃ h : j < 16, s.stack[j] = w := by
  simp [State.stackEntry, Vector.getElem?_eq_some_iff]

/-- SetKey writes one flag and nothing else, and answers exactly for an index 0 to 15. -/
theorem setKey_eq_some {index : Nat} {pressed : Bool} {t : State} :
    setKey index pressed s = some t ↔ ∃ h : index < 16, t = { s with keys := s.keys.set index pressed h } := by
  unfold setKey
  split <;> rename_i h
  · simp [h, eq_comm]
  · simp [h]

/-! ## `tickTimer` -/

/-- TickTimer writes DT and nothing else. -/
theorem tickTimer_eq : tickTimer s = { s with dt := if s.dt = 0 then 0 else s.dt - 1 } := by
  unfold tickTimer
  split <;> rename_i h
  · rw [← h]
  · rfl

@[simp] theorem tickTimer_mem : (tickTimer s).mem = s.mem := by rw [tickTimer_eq]
@[simp] theorem tickTimer_v : (tickTimer s).v = s.v := by rw [tickTimer_eq]
@[simp] theorem tickTimer_i : (tickTimer s).i = s.i := by rw [tickTimer_eq]
@[simp] theorem tickTimer_pc : (tickTimer s).pc = s.pc := by rw [tickTimer_eq]
@[simp] theorem tickTimer_sp : (tickTimer s).sp = s.sp := by rw [tickTimer_eq]
@[simp] theorem tickTimer_stack : (tickTimer s).stack = s.stack := by rw [tickTimer_eq]
@[simp] theorem tickTimer_keys : (tickTimer s).keys = s.keys := by rw [tickTimer_eq]
@[simp] theorem tickTimer_disp : (tickTimer s).disp = s.disp := by rw [tickTimer_eq]
@[simp] theorem tickTimer_halt : (tickTimer s).halt = s.halt := by rw [tickTimer_eq]
@[simp] theorem tickTimer_fault : (tickTimer s).fault = s.fault := by rw [tickTimer_eq]

/-! ## General registers -/

/-- A register reads as what was written to it. -/
@[simp] theorem State.readV_writeV_self (r : Reg) (value : Byte) : (s.writeV r value).readV r = value := by
  simp [State.readV, State.writeV]

/-- A write leaves every other register alone. -/
theorem State.readV_writeV_other {r q : Reg} (h : q ≠ r) (value : Byte) :
    (s.writeV r value).readV q = s.readV q := by
  simp only [State.readV, State.writeV, Fin.getElem_fin]
  exact Vector.getElem_set_ne _ _ (fun e => h (Fin.ext e.symm))

/-! ## The display -/

/-- Every cell of the cleared display is off. -/
@[simp] theorem Display.off_cell (y : Fin 32) (x : Fin 64) : Display.off[y.val][x.val] = false := by
  simp [Display.off]

@[simp] theorem State.pixel_clearDisplay (y : Fin 32) (x : Fin 64) : s.clearDisplay.pixel y x = false := by
  simp [State.pixel]

/-! ## The address of the running instruction -/

/-- After the pre-increment the instruction's address is the PC the Step began with. -/
@[simp] theorem State.advancePc_instrAddr : s.advancePc.instrAddr = s.pc := by
  simp [State.instrAddr]

end Sys2Proof.Machine
end

