-- ==== Sys2Proof/Laws/Step.lean ====
section
/-! SUPPORT. What fetch, each handler and one Step can do, said once: the equation of every handler in each of its
cases, and the inversion of `exec` and of `step`. -/

namespace Sys2Proof.Machine

variable {s t : State}

/-! ## Fetch -/

theorem fetchWord_eq_none : s.fetchWord = none ↔ 0xFFE < s.pc.toNat := memRead2_eq_none

theorem fetchWord_eq_some {w : Word} : s.fetchWord = some w ↔
    s.pc.toNat ≤ 0xFFE ∧ joinBytes (s.mem.read s.pc.toNat) (s.mem.read (s.pc.toNat + 1)) = w :=
  memRead2_eq_some

/-- The next Step fetches w exactly when the machine runs and fetch answers w. -/
theorem aboutToRun_iff {w : Word} : s.AboutToRun w ↔ s.halt = false ∧ s.fetchWord = some w := by
  simp only [State.AboutToRun, fetchWord_eq_some, joinBytes_eq_iff]

/-- The pre-increment never wraps where a fetch was made (R123). -/
theorem pc_add_two_toNat (h : s.pc.toNat ≤ 0xFFE) : (s.pc + 2).toNat = s.pc.toNat + 2 := by
  rw [BitVec.toNat_add]
  change (s.pc.toNat + 2) % 65536 = _
  omega

/-! ## The handlers -/

theorem exec_cls : exec .cls s = .next s.clearDisplay := rfl

theorem exec_jp (nnn : Addr) : exec (.jp nnn) s = .next (s.setPc (zextAddr nnn)) := rfl

theorem exec_seImm (x : Reg) (kk : Byte) :
    exec (.seImm x kk) s = .next (s.skipIf (bytesEqual (s.readV x) kk)) := rfl

theorem exec_sneImm (x : Reg) (kk : Byte) :
    exec (.sneImm x kk) s = .next (s.skipIf (!bytesEqual (s.readV x) kk)) := rfl

theorem exec_seReg (x y : Reg) :
    exec (.seReg x y) s = .next (s.skipIf (bytesEqual (s.readV x) (s.readV y))) := rfl

theorem exec_ldImm (x : Reg) (kk : Byte) : exec (.ldImm x kk) s = .next (s.writeV x kk) := rfl

theorem exec_addImm (x : Reg) (kk : Byte) :
    exec (.addImm x kk) s = .next (s.writeV x (addBytes (s.readV x) kk)) := rfl

/-- CALL with room on the stack. -/
theorem exec_call_room (nnn : Addr) (h : s.sp.toNat < 16) : exec (.call nnn) s =
    .next { s with stack := s.stack.set s.sp.toNat s.pc h, sp := s.sp + 1, pc := zextAddr nnn } := by
  have hne : s.sp ≠ Config.stackFull := by intro e; rw [e] at h; exact absurd h (by decide)
  simp only [exec, execCall, hne, if_false, State.setStackEntry, h, dif_pos]
  rfl

/-- CALL on a full stack. -/
theorem exec_call_full (nnn : Addr) (h : s.sp = 16) :
    exec (.call nnn) s = .next (s.raise .stackOverflow s.instrAddr (encode (.call nnn))) := by
  simp only [exec, execCall, h, if_true]

/-- CALL where there is no stack entry for its return address. -/
theorem exec_call_none (nnn : Addr) (h : 16 < s.sp.toNat) : exec (.call nnn) s = .fault .noStackEntry := by
  have hne : s.sp ≠ Config.stackFull := by intro e; rw [e] at h; exact absurd h (by decide)
  have hno : ¬ s.sp.toNat < 16 := by omega
  simp only [exec, execCall, hne, if_false, State.setStackEntry, hno, dif_neg, not_false_eq_true]

theorem sp_sub_one_toNat (h : 0 < s.sp.toNat) : (s.sp - 1).toNat = s.sp.toNat - 1 := by
  have := s.sp.isLt
  rw [BitVec.toNat_sub]
  change (256 - 1 + s.sp.toNat) % 256 = _
  omega

/-- RET with an entry to pop. -/
theorem exec_ret_live (h0 : 0 < s.sp.toNat) (h : s.sp.toNat - 1 < 16) : exec .ret s =
    .next { s with sp := s.sp - 1, pc := s.stack[s.sp.toNat - 1] } := by
  have hne : s.sp ≠ 0 := by intro e; rw [e] at h0; exact absurd h0 (by decide)
  have hentry : s.stackEntry (s.sp - 1).toNat = some s.stack[s.sp.toNat - 1] := by
    rw [sp_sub_one_toNat h0]
    exact s.stackEntry_eq_some.2 ⟨h, rfl⟩
  simp only [exec, execRet, hne, if_false, hentry]
  rfl

/-- RET on an empty stack. -/
theorem exec_ret_empty (h : s.sp = 0) :
    exec .ret s = .next (s.raise .stackUnderflow s.instrAddr (encode .ret)) := by
  simp only [exec, execRet, h, if_true]

/-- RET where there is no stack entry to pop. -/
theorem exec_ret_none (h : 16 < s.sp.toNat) : exec .ret s = .fault .noStackEntry := by
  have hne : s.sp ≠ 0 := by intro e; rw [e] at h; exact absurd h (by decide)
  have hentry : s.stackEntry (s.sp - 1).toNat = none := by
    rw [sp_sub_one_toNat (by omega)]
    simp [State.stackEntry]
    omega
  simp only [exec, execRet, hne, if_false, hentry]

/-! ## The inversion of exec and of step -/

/-- Everything a handler can do when it answers a next state. -/
theorem exec_cases {i : Instr} (h : exec i s = .next t) :
    (i = .cls ∧ t = s.clearDisplay) ∨
    (∃ nnn, i = .jp nnn ∧ t = s.setPc (zextAddr nnn)) ∨
    (∃ x kk, i = .seImm x kk ∧ t = s.skipIf (bytesEqual (s.readV x) kk)) ∨
    (∃ x kk, i = .sneImm x kk ∧ t = s.skipIf (!bytesEqual (s.readV x) kk)) ∨
    (∃ x y, i = .seReg x y ∧ t = s.skipIf (bytesEqual (s.readV x) (s.readV y))) ∨
    (∃ x kk, i = .ldImm x kk ∧ t = s.writeV x kk) ∨
    (∃ x kk, i = .addImm x kk ∧ t = s.writeV x (addBytes (s.readV x) kk)) ∨
    (∃ nnn, ∃ hlt : s.sp.toNat < 16, i = .call nnn ∧
      t = { s with stack := s.stack.set s.sp.toNat s.pc hlt, sp := s.sp + 1, pc := zextAddr nnn }) ∨
    (∃ nnn, i = .call nnn ∧ s.sp = 16 ∧ t = s.raise .stackOverflow s.instrAddr (encode (.call nnn))) ∨
    (∃ hlt : s.sp.toNat - 1 < 16, 0 < s.sp.toNat ∧ i = .ret ∧
      t = { s with sp := s.sp - 1, pc := s.stack[s.sp.toNat - 1] }) ∨
    (i = .ret ∧ s.sp = 0 ∧ t = s.raise .stackUnderflow s.instrAddr (encode .ret)) := by
  cases i with
  | cls => rw [exec_cls, Host.Outcome.next.injEq] at h; simp [h]
  | jp nnn => rw [exec_jp, Host.Outcome.next.injEq] at h; simp [h]
  | seImm x kk => rw [exec_seImm, Host.Outcome.next.injEq] at h; simp [h]
  | sneImm x kk => rw [exec_sneImm, Host.Outcome.next.injEq] at h; simp [h]
  | seReg x y => rw [exec_seReg, Host.Outcome.next.injEq] at h; simp [h]
  | ldImm x kk => rw [exec_ldImm, Host.Outcome.next.injEq] at h; simp [h]
  | addImm x kk => rw [exec_addImm, Host.Outcome.next.injEq] at h; simp [h]
  | call nnn =>
    rcases Nat.lt_trichotomy s.sp.toNat 16 with hlt | heq | hgt
    · rw [exec_call_room nnn hlt, Host.Outcome.next.injEq] at h
      exact .inr <| .inr <| .inr <| .inr <| .inr <| .inr <| .inr <| .inl ⟨nnn, hlt, rfl, h.symm⟩
    · have hsp : s.sp = 16 := BitVec.eq_of_toNat_eq heq
      rw [exec_call_full nnn hsp, Host.Outcome.next.injEq] at h
      exact .inr <| .inr <| .inr <| .inr <| .inr <| .inr <| .inr <| .inr <| .inl ⟨nnn, rfl, hsp, h.symm⟩
    · rw [exec_call_none nnn hgt] at h
      exact absurd h (by simp)
  | ret =>
    by_cases h0 : 0 < s.sp.toNat
    · by_cases hlt : s.sp.toNat - 1 < 16
      · rw [exec_ret_live h0 hlt, Host.Outcome.next.injEq] at h
        exact .inr <| .inr <| .inr <| .inr <| .inr <| .inr <| .inr <| .inr <| .inr <| .inl ⟨hlt, h0, rfl, h.symm⟩
      · rw [exec_ret_none (by omega)] at h
        exact absurd h (by simp)
    · have hsp : s.sp = 0 := BitVec.eq_of_toNat_eq (by simpa using h0)
      rw [exec_ret_empty hsp, Host.Outcome.next.injEq] at h
      exact .inr <| .inr <| .inr <| .inr <| .inr <| .inr <| .inr <| .inr <| .inr <| .inr ⟨rfl, hsp, h.symm⟩

/-- Everything a Step can do when it answers a next state (R127). -/
theorem step_cases (h : step s = .next t) :
    (s.halt = true ∧ t = s) ∨
    (s.halt = false ∧ 0xFFE < s.pc.toNat ∧ t = s.raiseFetchOutOfRange) ∨
    (∃ w, s.AboutToRun w ∧ decode w = none ∧ t = s.advancePc.raiseUnknownOpcode w) ∨
    (∃ w i, s.AboutToRun w ∧ decode w = some i ∧ exec i s.advancePc = .next t) := by
  unfold step at h
  cases hh : s.halt with
  | true => simp [hh] at h; exact .inl ⟨rfl, h.symm⟩
  | false =>
    simp only [hh, Bool.false_eq_true, if_false] at h
    cases hf : s.fetchWord with
    | none =>
      simp only [hf, Host.Outcome.next.injEq] at h
      exact .inr (.inl ⟨rfl, fetchWord_eq_none.1 hf, h.symm⟩)
    | some w =>
      simp only [hf] at h
      cases hd : decode w with
      | none =>
        simp only [hd, Host.Outcome.next.injEq] at h
        exact .inr (.inr (.inl ⟨w, aboutToRun_iff.2 ⟨hh, hf⟩, hd, h.symm⟩))
      | some i =>
        simp only [hd] at h
        exact .inr (.inr (.inr ⟨w, i, aboutToRun_iff.2 ⟨hh, hf⟩, hd, h⟩))

/-- Everything a Step that halts a running machine can do: exactly one of the four faults (R257, R258). -/
theorem step_halts_cases (hrun : s.halt = false) (h : step s = .next t) (hhalt : t.halt = true) :
    (0xFFE < s.pc.toNat ∧ t = s.raiseFetchOutOfRange) ∨
    (∃ w, s.AboutToRun w ∧ decode w = none ∧ t = s.advancePc.raiseUnknownOpcode w) ∨
    (∃ w nnn, s.AboutToRun w ∧ decode w = some (.call nnn) ∧ s.sp = 16 ∧
      t = s.advancePc.raise .stackOverflow s.advancePc.instrAddr (encode (.call nnn))) ∨
    (∃ w, s.AboutToRun w ∧ decode w = some .ret ∧ s.sp = 0 ∧
      t = s.advancePc.raise .stackUnderflow s.advancePc.instrAddr (encode .ret)) := by
  obtain ⟨e, -⟩ | ⟨-, hpc, rfl⟩ | hunknown | ⟨w, i, hw, hd, he⟩ := step_cases h
  · rw [hrun] at e; exact absurd e (by decide)
  · exact .inl ⟨hpc, rfl⟩
  · exact .inr (.inl hunknown)
  · have keeps : t.halt ≠ s.halt := by rw [hrun, hhalt]; decide
    rcases exec_cases he with ⟨-, rfl⟩ | ⟨_, -, rfl⟩ | ⟨_, _, -, rfl⟩ | ⟨_, _, -, rfl⟩ | ⟨_, _, -, rfl⟩ |
      ⟨_, _, -, rfl⟩ | ⟨_, _, -, rfl⟩ | ⟨_, _, -, rfl⟩ | ⟨nnn, rfl, hsp, rfl⟩ | ⟨_, _, -, rfl⟩ | ⟨rfl, hsp, rfl⟩ <;>
      try (refine absurd ?_ keeps; simp; done)
    · exact .inr (.inr (.inl ⟨w, nnn, hw, hd, hsp, rfl⟩))
    · exact .inr (.inr (.inr ⟨w, hw, hd, hsp, rfl⟩))

end Sys2Proof.Machine
end

