-- ==== Sys2Proof/Laws/HostOps.lean ====
section
/-! SUPPORT. What the host operations can do, said once. -/

namespace Sys2Proof.Machine

variable {s t : State}

/-- An image that is too long is LoadError. -/
theorem loadWith_eq_none_of_long (glyphs : GlyphTable) {bytes : List Byte} (h : Config.maxImage < bytes.length) :
    loadWith glyphs bytes s = none := by
  have : ¬ bytes.length ≤ Config.maxImage := by omega
  simp only [loadWith, this, if_false]

/-- Load of an image that fits, on a memory in canonical form: it answers, and MEM is all it may change. -/
theorem loadWith_spec (glyphs : GlyphTable) {bytes : List Byte} (hwf : s.mem.wf = true)
    (hlen : bytes.length ≤ Config.maxImage) :
    ∃ m, loadWith glyphs bytes s = some { s with mem := m } ∧ Memory.wf m = true := by
  simp only [Config.maxImage] at hlen
  obtain ⟨m1, h1, hwf1, -, -⟩ := memWriteBytes_spec bytes (a := Config.loadAddr) hwf (by simp [Config.loadAddr]; omega)
  obtain ⟨m2, h2, hwf2, -, -⟩ := memWriteBytes_spec glyphs.toList (a := Config.glyphAddr) hwf1
    (by simp [Config.glyphAddr])
  exact ⟨m2, by simp [loadWith, hlen, h1, h2], hwf2⟩

/-- Everything Load can do when it succeeds: MEM is the image at 0x200, then the glyph table at 0x050. -/
theorem loadWith_cases {glyphs : GlyphTable} {bytes : List Byte} (h : loadWith glyphs bytes s = some t) :
    bytes.length ≤ Config.maxImage ∧ ∃ m m', memWriteBytes s.mem Config.loadAddr bytes = some m ∧
      memWriteBytes m Config.glyphAddr glyphs.toList = some m' ∧ t = { s with mem := m' } := by
  unfold loadWith at h
  split at h
  · obtain ⟨m', hm, rfl⟩ := Option.map_eq_some_iff.1 h
    obtain ⟨m, h1, h2⟩ := Option.bind_eq_some_iff.1 hm
    exact ⟨‹_›, m, m', h1, h2, rfl⟩
  · exact absurd h (by simp)

/-- Everything a host operation can do to the machine instance when it is answered. -/
theorem hostOp_cases {glyphs : GlyphTable} {op : HostOp} {u u' : Session} {reply : Reply}
    (h : hostOp glyphs op u = .next (u', reply)) :
    (op = .reset ∧ u' = Session.reset ∧ reply = .done) ∨
    (∃ bytes m, op = .load bytes ∧ u.phase = .fresh ∧ loadWith glyphs bytes u.machine = some m ∧
      u' = ⟨m, .loaded⟩ ∧ reply = .done) ∨
    (∃ bytes, op = .load bytes ∧ u.phase = .fresh ∧ loadWith glyphs bytes u.machine = none ∧ u' = u ∧
      reply = .loadError) ∨
    (∃ m, op = .step ∧ step u.machine = .next m ∧ u' = ⟨m, .running⟩ ∧ reply = stepReply u.machine m) ∨
    (op = .tickTimer ∧ u' = { u with machine := tickTimer u.machine } ∧ reply = .done) ∨
    (∃ index pressed m, op = .setKey index pressed ∧ setKey index pressed u.machine = some m ∧
      u' = { u with machine := m } ∧ reply = .done) ∨
    (op = .readDisplay ∧ u' = u ∧ reply = .display (readDisplay u.machine)) := by
  cases op with
  | reset => simp [hostOp] at h; simp [h]
  | load bytes =>
    simp only [hostOp, hostLoad] at h
    split at h
    · exact absurd h (by simp)
    · exact absurd h (by simp)
    · split at h <;> simp at h
      · rename_i m hm
        exact .inr (.inl ⟨bytes, m, rfl, ‹_›, hm, h.1.symm, h.2.symm⟩)
      · exact .inr (.inr (.inl ⟨bytes, rfl, ‹_›, ‹_›, h.1.symm, h.2.symm⟩))
  | step =>
    simp only [hostOp, hostStep] at h
    split at h <;> simp at h
    rename_i m hm
    exact .inr (.inr (.inr (.inl ⟨m, rfl, hm, h.1.symm, h.2.symm⟩)))
  | tickTimer => simp [hostOp] at h; simp [h]
  | setKey index pressed =>
    simp only [hostOp, hostSetKey] at h
    split at h <;> simp at h
    rename_i m hm
    exact .inr (.inr (.inr (.inr (.inr (.inl ⟨index, pressed, m, rfl, hm, h.1.symm, h.2.symm⟩)))))
  | readDisplay =>
    simp [hostOp] at h
    obtain ⟨rfl, rfl⟩ := h
    simp

end Sys2Proof.Machine
end

