-- ==== Sys2Proof/Laws/PerInstr.lean ====
section
/-! SUPPORT. Facts about every instruction as syntax, one lemma per constructor. TableRow: the word of an instruction
matches its row of the opcode map (30_encoding.md R95), and the row is one of the table's. -/

namespace Sys2Proof.Laws.TableRow

/-- The word of the instruction, masked, is the pattern of its row, and the row stands in the opcode map. -/
def Statement (i : Instr) : Prop :=
  encode i &&& (rowOf i).mask = (rowOf i).pattern ∧ rowOf i ∈ opcodeTable

/-- A word of one family matches the family's pattern under mask F000. -/
theorem family_matches {w pattern : Word} (h : w.toNat / 4096 * 4096 = pattern.toNat) : w &&& 0xF000#16 = pattern :=
  BitVec.eq_of_toNat_eq ((and_F000_toNat w).trans h)

theorem cls : Statement .cls := ⟨by decide, by decide⟩

theorem ret : Statement .ret := ⟨by decide, by decide⟩

theorem jp (nnn : Addr) : Statement (.jp nnn) := by
  refine ⟨family_matches ?_, by simp [rowOf, opcodeTable]⟩
  have := nnn.isLt
  rw [encode_jp_toNat]
  change _ = 0x1000
  omega

theorem call (nnn : Addr) : Statement (.call nnn) := by
  refine ⟨family_matches ?_, by simp [rowOf, opcodeTable]⟩
  have := nnn.isLt
  rw [encode_call_toNat]
  change _ = 0x2000
  omega

theorem seImm (x : Reg) (kk : Byte) : Statement (.seImm x kk) := by
  refine ⟨family_matches ?_, by simp [rowOf, opcodeTable]⟩
  have := kk.isLt
  rw [encode_seImm_toNat]
  change _ = 0x3000
  omega

theorem sneImm (x : Reg) (kk : Byte) : Statement (.sneImm x kk) := by
  refine ⟨family_matches ?_, by simp [rowOf, opcodeTable]⟩
  have := kk.isLt
  rw [encode_sneImm_toNat]
  change _ = 0x4000
  omega

theorem ldImm (x : Reg) (kk : Byte) : Statement (.ldImm x kk) := by
  refine ⟨family_matches ?_, by simp [rowOf, opcodeTable]⟩
  have := kk.isLt
  rw [encode_ldImm_toNat]
  change _ = 0x6000
  omega

theorem addImm (x : Reg) (kk : Byte) : Statement (.addImm x kk) := by
  refine ⟨family_matches ?_, by simp [rowOf, opcodeTable]⟩
  have := kk.isLt
  rw [encode_addImm_toNat]
  change _ = 0x7000
  omega

theorem seReg (x y : Reg) : Statement (.seReg x y) := by
  refine ⟨BitVec.eq_of_toNat_eq ((and_F00F_toNat _).trans ?_), by simp [rowOf, opcodeTable]⟩
  rw [encode_seReg_toNat]
  change _ = 0x5000
  omega

end Sys2Proof.Laws.TableRow
end

