-- ==== Sys2Proof/Laws/Run.lean ====
section
/-! SUPPORT. The host's run of k Steps, unrolled one Step at a time. -/

namespace Sys2Proof.Machine

variable {s t : State}

@[simp] theorem run_zero : Host.Core.run core 0 s = .next s := rfl

/-- A run whose first Step answers a next state goes on from it. -/
theorem run_succ_of_next {k : Nat} (h : step s = .next t) :
    Host.Core.run core (k + 1) s = Host.Core.run core k t := by
  have h' : core.step s = .next t := h
  simp only [Host.Core.run, h']

/-- A run that answers a next state: its first Step does, and the rest of the run from there. -/
theorem run_succ_cases {k : Nat} (h : Host.Core.run core (k + 1) s = .next t) :
    ∃ u, step s = .next u ∧ Host.Core.run core k u = .next t := by
  cases hs : step s with
  | next u => exact ⟨u, rfl, (run_succ_of_next hs).symm.trans h⟩
  | fault r =>
    have h' : core.step s = .fault r := hs
    simp only [Host.Core.run, h'] at h
    exact absurd h (by simp)
  | refused r =>
    have h' : core.step s = .refused r := hs
    simp only [Host.Core.run, h'] at h
    exact absurd h (by simp)

end Sys2Proof.Machine
end

