-- ==== Sys2Proof/Tests/Slice0.lean ====
section
/-! SUPPORT. The model's own tests: expected values come from 95_test_vectors.md and from words and sums written out by
hand from the rules named beside each test. Then the witnesses: for every statement with hypotheses, a concrete state and
operands that meet them together. -/

open Sys2Proof Sys2Proof.Machine

namespace Sys2Proof.Tests

/-! ## Small states -/

/-- The state after Reset with PC at `a` and the word `w` there. -/
def atWord (a w : Word) : State := (State.reset.setPc a).placeWord w

/-- A stack that holds one return address. -/
def oneEntry (ret : Word) : Vector Word 16 := (Vector.replicate 16 0).set 0 ret

/-- What a field of the next state is, if there is one. -/
def nextField {α : Type} (f : State → α) : Host.Outcome State Fault Refusal → Option α
  | .next t => some (f t)
  | .fault _ => none
  | .refused _ => none

/-- What a field of the machine is after a host operation, if it is answered. -/
def machineField {α : Type} (f : State → α) : Host.Outcome (Session × Reply) Fault Refusal → Option α
  | .next p => some (f p.1.machine)
  | .fault _ => none
  | .refused _ => none

/-- A glyph table for the tests: its bytes are nobody's font. -/
def someGlyphs : GlyphTable := Vector.replicate 80 0x81

/-! ## Assembly: one ill-formed line for each check (R100, R101), and well-formed ones -/

theorem test_jp_address_too_big : (AsmLine.jp 0x1000).wellFormed = false := by decide
theorem test_call_address_too_big : (AsmLine.call 0x1000).wellFormed = false := by decide
theorem test_se_register_too_big : (AsmLine.se 16 (.num 0)).wellFormed = false := by decide
theorem test_se_immediate_too_big : (AsmLine.se 0 (.num 256)).wellFormed = false := by decide
theorem test_se_second_register_too_big : (AsmLine.se 0 (.reg 16)).wellFormed = false := by decide
theorem test_se_first_of_two_too_big : (AsmLine.se 16 (.reg 0)).wellFormed = false := by decide
theorem test_sne_register_too_big : (AsmLine.sne 16 0).wellFormed = false := by decide
theorem test_sne_immediate_too_big : (AsmLine.sne 0 256).wellFormed = false := by decide
theorem test_ld_register_too_big : (AsmLine.ld 16 0).wellFormed = false := by decide
theorem test_ld_immediate_too_big : (AsmLine.ld 0 256).wellFormed = false := by decide
theorem test_add_register_too_big : (AsmLine.add 16 0).wellFormed = false := by decide
theorem test_add_immediate_too_big : (AsmLine.add 0 256).wellFormed = false := by decide
theorem test_dw_too_big : (AsmLine.dw 0x10000).wellFormed = false := by decide

/-- S1: `60 05` is LD V0,5; S2: `22 04` is CALL 0x204. -/
theorem test_asm_words : (AsmLine.ld 0 5).word? = some 0x6005 ∧ (AsmLine.call 0x204).word? = some 0x2204 ∧
    (AsmLine.se 1 (.reg 2)).word? = some 0x5120 ∧ (AsmLine.dw 0xFF00).word? = some 0xFF00 := by decide

/-! ## Decoding: every constructor by a word written out from its format (R92, V-DEC) -/

theorem test_decode_cls : decode 0b0000_0000_1110_0000 = some .cls := by decide
theorem test_decode_ret : decode 0b0000_0000_1110_1110 = some .ret := by decide
theorem test_decode_jp : decode 0b0001_1111_1111_1110 = some (.jp 0xFFE) := by decide
theorem test_decode_call : decode 0b0010_1010_1011_1100 = some (.call 0xABC) := by decide
theorem test_decode_seImm : decode 0b0011_1010_0111_1111 = some (.seImm 0xA 0x7F) := by decide
theorem test_decode_sneImm : decode 0b0100_1111_0000_0001 = some (.sneImm 0xF 0x01) := by decide
theorem test_decode_seReg : decode 0b0101_0001_0010_0000 = some (.seReg 1 2) := by decide
theorem test_decode_ldImm : decode 0b0110_1100_1111_1110 = some (.ldImm 0xC 0xFE) := by decide
theorem test_decode_addImm : decode 0b0111_0000_0000_0001 = some (.addImm 0 0x01) := by decide

/-- V-DEC's rows that are Unknown. -/
theorem test_decode_unknown : [0x00E1, 0x00EF, 0x0000, 0x0123, 0x5121, 0x512F, 0x8124, 0x9120, 0xA123, 0xB123, 0xC1FF,
    0xD125, 0xE19E, 0xF11E, 0xFFFF].map decode = List.replicate 15 none := by decide

/-- Rejection by name, and the byte order of R64: 12 34 is JP 0x234. -/
theorem test_decodeBytes : decodeBytes [0x12, 0x34, 0xFF] = .instr (.jp 0x234) [0xFF] ∧
    decodeBytes [0x51, 0x21] = .unknownOpcode 0x5121 ∧ decodeBytes [0x12] = .truncated := by decide

theorem test_decodeTableWord : decodeTableWord 16 0x3A7F = some (.seImm 0xA 0x7F) ∧
    decodeTableWord 16 0x8124 = none := by decide

/-! ## Memory -/

/-- Writing what an unlisted cell reads as removes the entry; the list stays sorted. -/
theorem test_write_canonical : Memory.write (Memory.write [(3, 7), (9, 1)] 3 0) 5 2 = [(5, 2), (9, 1)] := by decide

/-- R66 at the top of MEM: 0xFFF is a cell, and a two-byte access there is not performed. -/
theorem test_top_of_memory : memRead1 [] 0xFFF = some 0 ∧ memRead1 [] 0x1000 = none ∧ memRead2 [] 0xFFF = none ∧
    memWrite1 [] 0x1000 1 = none ∧ memWrite2 [] 0xFFF 1 = none ∧
    memWrite2 [] 0xFFE 0x1234 = some [(0xFFE, 0x12), (0xFFF, 0x34)] := by decide

/-! ## Instructions: rows of V-CLS, V-JP, V-CALL, V-RET, V-SKIP, V-LD and V-ADD -/

/-- V-CLS: DISP with a cell on, PC = 0x0300. -/
theorem test_cls : nextField (fun t => (t.pixel 31 63, t.pc)) (step { atWord 0x300 0x00E0 with
    disp := Display.off.set 31 ((Vector.replicate 64 false).set 63 true) }) = some (false, 0x302) := by decide

/-- V-JP: an odd target. -/
theorem test_jp_odd : nextField State.pc (step (atWord 0x200 0x1203)) = some 0x203 := by decide

/-- V-CALL: PC = 0x0345, SP = 3. -/
theorem test_call : nextField (fun t => (t.pc, t.sp, t.stack[3])) (step { atWord 0x345 0x2ABC with sp := 3 }) =
    some (0xABC, 4, 0x347) := by decide

/-- V-CALL: StackOverflow, FAULT = (2, 0x0200, 0x2300), PC = 0x0202, SP = 16. -/
theorem test_call_overflow : nextField (fun t => (t.halt, t.fault, t.pc, t.sp))
    (step { atWord 0x200 0x2300 with sp := 16 }) =
    some (true, ⟨.stackOverflow, 0x200, 0x2300⟩, 0x202, 16) := by decide

/-- V-RET: SP = 1, STACK[0] = 0x0202; the entry keeps its value. -/
theorem test_ret : nextField (fun t => (t.pc, t.sp, t.stack[0]))
    (step { atWord 0x300 0x00EE with sp := 1, stack := oneEntry 0x202 }) = some (0x202, 0, 0x202) := by decide

/-- V-RET: StackUnderflow, FAULT = (3, 0x0300, 0x00EE), PC = 0x0302, SP = 0 and not 255. -/
theorem test_ret_underflow : nextField (fun t => (t.halt, t.fault, t.pc, t.sp)) (step (atWord 0x300 0x00EE)) =
    some (true, ⟨.stackUnderflow, 0x300, 0x00EE⟩, 0x302, 0) := by decide

/-- V-SKIP: V3 = 0x2A. -/
theorem test_seImm : nextField State.pc (step ((atWord 0x200 0x332A).writeV 3 0x2A)) = some 0x204 ∧
    nextField State.pc (step ((atWord 0x200 0x332B).writeV 3 0x2A)) = some 0x202 := by decide

theorem test_sneImm : nextField State.pc (step ((atWord 0x200 0x432A).writeV 3 0x2A)) = some 0x202 ∧
    nextField State.pc (step ((atWord 0x200 0x432B).writeV 3 0x2A)) = some 0x204 := by decide

/-- V-SKIP: all eight bits compared; and at the last address a taken skip gives 0x1002. -/
theorem test_seReg : nextField State.pc (step ((atWord 0x200 0x5120).writeV 1 0x80)) = some 0x202 ∧
    nextField State.pc (step ((atWord 0xFFE 0x5440).writeV 4 0x80)) = some 0x1002 := by decide

/-- V-LD: VF is an ordinary register. -/
theorem test_ldImm_vf : nextField (fun t => (t.v[15], t.pc)) (step (atWord 0x200 0x6FFF)) = some (0xFF, 0x202) := by
  decide

/-- S4.2: 250 + 10 is 4; V-ADD: V0 = 0xFF, VF = 0x55, no carry written. -/
theorem test_addImm : nextField (fun t => t.v[0]) (step ((atWord 0x200 0x700A).writeV 0 0xFA)) = some 0x04 ∧
    nextField (fun t => (t.v[0], t.v[15])) (step (((atWord 0x200 0x7001).writeV 0 0xFF).writeV 15 0x55)) =
      some (0x00, 0x55) := by decide

/-! ## Faults and halt: V-FAULT -/

/-- R283: with no Load, the first Step after Reset raises UnknownOpcode. -/
theorem test_step_without_load : nextField (fun t => (t.halt, t.fault, t.pc)) (step State.reset) =
    some (true, ⟨.unknownOpcode, 0x200, 0x0000⟩, 0x202) := by decide

/-- V-JP: at 0x0FFF, FAULT = (4, 0x0FFF, 0x0000), PC stays. -/
theorem test_fetch_out_of_range : nextField (fun t => (t.halt, t.fault, t.pc)) (step (State.reset.setPc 0xFFF)) =
    some (true, ⟨.fetchOutOfRange, 0xFFF, 0x0000⟩, 0xFFF) := by decide

/-- V-FAULT: PC = 0x0FFD, MEM[0xFFD..0xFFE] = 60 01 executes. -/
theorem test_last_odd_fetch : nextField (fun t => (t.v[0], t.pc)) (step (atWord 0xFFD 0x6001)) = some (1, 0xFFF) := by
  decide

/-- R251's codes. -/
theorem test_cause_codes : [Cause.none, .unknownOpcode, .stackOverflow, .stackUnderflow, .fetchOutOfRange].map Cause.code =
    [0, 1, 2, 3, 4] := by decide

theorem test_stop_without_stack_entry : nextField State.pc (step { atWord 0x200 0x2300 with sp := 17 }) = none ∧
    nextField State.pc (step { atWord 0x200 0x00EE with sp := 18 }) = none := by decide

/-! ## Host operations: V-HOST, V-RESET, S1, S2 -/

/-- S1: Load `60 05 70 03`, two Steps: V0 = 8, PC = 0x204. -/
theorem test_load_then_add : machineField (fun m => (m.v[0], m.pc))
    (match hostRun someGlyphs [.reset, .load [0x60, 0x05, 0x70, 0x03], .step, .step] Session.reset with
     | .next (u, _) => .next (u, .done)
     | .fault r => .fault r
     | .refused r => .refused r) = some (8, 0x204) := by decide

/-- S2: Load `22 04 00 00 00 EE`, two Steps: PC = 0x202, SP = 0, STACK[0] still 0x0202. -/
theorem test_call_then_ret : machineField (fun m => (m.pc, m.sp, m.stack[0]))
    (match hostRun someGlyphs [.load [0x22, 0x04, 0x00, 0x00, 0x00, 0xEE], .step, .step] Session.reset with
     | .next (u, _) => .next (u, .done)
     | .fault r => .fault r
     | .refused r => .refused r) = some (0x202, 0, 0x202) := by decide

theorem test_tickTimer : (tickTimer State.reset).dt = 0 ∧ (tickTimer { State.reset with dt := 0xFF }).dt = 0xFE := by
  decide

theorem test_setKey : (setKey 3 true { State.reset with halt := true }).map (fun t => (t.keys[3], t.keys[4], t.halt)) =
    some (true, false, true) ∧ setKey 16 true State.reset = none := by decide

/-! ## Witnesses: the hypotheses of each statement hold together somewhere -/

theorem witness_LaunchStateIsDetermined : ([0x60, 0x05] : List Byte).length ≤ 3584 ∧
    (0x4F < 0x50 ∧ 79 < 80 ∧ 0xA0 ≤ 0x1FF ∧ 0x1FF < 0x200 ∧ 1 < ([0x60, 0x05] : List Byte).length ∧
      0x200 + ([0x60, 0x05] : List Byte).length ≤ 0x202) := by decide

theorem witness_MemoryPrimitivesAreRangeChecked : Memory.wf [(0x050, 0xF0), (0xFFF, 0x01)] = true ∧
    memRead2 [(0x050, 0xF0), (0xFFF, 0x01)] 0xFFE = some 0x0001 ∧
    (memWrite1 [(0x050, 0xF0), (0xFFF, 0x01)] 0xFFF 2).isSome ∧
    (memWrite2 [(0x050, 0xF0), (0xFFF, 0x01)] 0xFFE 2).isSome ∧
    memRead2 [] 0xFFF = none ∧ memWrite1 [] 0x1000 2 = none ∧ memWrite2 [] 0xFFF 2 = none := by decide

theorem witness_FetchIsBigEndianAndTheOnlyMemoryAccess : (atWord 0xFFE 0x1234).fetchWord = some 0x1234 := by decide

theorem witness_MemoryIsFlatReadableAndNotWrittenByAnyStep : (State.reset.setPc 0xFFE).pc.toNat ≤ 0xFFE ∧
    nextField State.pc (step (atWord 0xFFE 0x1234)) = some 0x234 := by decide

theorem witness_OnlyItsOwnWordDecodesToAnInstruction : decode 0x5FF0 = some (.seReg 15 15) := by decide

/-- One word at an edge of each family of the dispatch tree. -/
theorem witness_DecodeFollowsTheDispatchTree : [0x0FFF, 0x1000, 0x2FFF, 0x3000, 0x4FFF, 0x5FF0, 0x6000, 0x7FFF, 0x8000].map
    (fun w : Word => w.toNat / 4096) = [0, 1, 2, 3, 4, 5, 6, 7, 8] := by decide

theorem witness_OpcodeMapSelectsTheInstruction : ⟨"SE_reg", 0xF00F, 0x5000⟩ ∈ opcodeTable ∧
    (0x5FF0 : Word) &&& 0xF00F = 0x5000 := by decide

theorem witness_AssemblyLinesHaveTheseWords : 0xFFF ≤ 0xFFF ∧ 15 ≤ 15 ∧ 255 ≤ 255 ∧ 0xFFFF ≤ 0xFFFF ∧
    (AsmLine.jp 0x1000).wellFormed = false := by decide

theorem witness_StepRunsTheDecodedInstruction : (atWord 0xFFE 0x6001).AboutToRun 0x6001 ∧
    decode 0x6001 = some (.ldImm 0 1) := by
  unfold State.AboutToRun; decide

theorem witness_PlacedWordIsFetchedNext : State.reset.mem.wf = true ∧ State.reset.pc.toNat ≤ 0xFFE ∧
    (0x202 : Nat) ≠ (State.reset.withFetchWord 16 0x6001).pc.toNat ∧
    (0x202 : Nat) ≠ (State.reset.withFetchWord 16 0x6001).pc.toNat + 1 := by decide

theorem witness_HaltedStepChangesNothing : Session.machine ⟨State.reset.raise .stackUnderflow 0x206 0x00EE, .running⟩ =
    State.reset.raise .stackUnderflow 0x206 0x00EE ∧ (State.reset.raise .stackUnderflow 0x206 0x00EE).halt = true :=
  ⟨rfl, rfl⟩

/-- A state that meets the invariant with an entry on its stack and a RET to run. -/
def invWitness : State := { atWord 0x300 0x00EE with sp := 1, stack := oneEntry 0x1000 }

theorem invWitness_inv : invWitness.Inv := by
  refine ⟨by decide, by decide, by decide, ?_, ⟨rfl, rfl, rfl⟩⟩
  intro j hj
  have h0 : j = 0 := by
    apply Fin.ext
    have h1 : j.val < 1 := hj
    omega
  subst h0
  decide

/-- The same state after a fault. -/
theorem invWitness_halted_inv : (invWitness.raise .stackUnderflow 0x300 0x00EE).Inv :=
  ⟨by decide, by decide, by decide, invWitness_inv.stack, ⟨rfl, by decide, rfl⟩⟩

/-- The halted case, and a running machine. -/
theorem witness_StepAlwaysAnswersANextState : (∃ s : State, s.Inv ∧ s.halt = true) ∧ ∃ s : State, s.Inv ∧ s.halt = false :=
  ⟨⟨_, invWitness_halted_inv, rfl⟩, ⟨_, invWitness_inv, rfl⟩⟩

theorem witness_OnlyControlInstructionsWritePc : ∃ (s t : State) (w : Word) (i : Instr),
    s.AboutToRun w ∧ decode w = some i ∧ step s = .next t ∧ t.pc.toNat ≠ s.pc.toNat + 2 :=
  ⟨atWord 0x200 0x1208, (atWord 0x200 0x1208).setPc 0x208, 0x1208, .jp 0x208,
    by unfold State.AboutToRun; decide, by decide, rfl, by decide⟩

theorem witness_SelfJumpIsTheOnlyFixedPoint : (atWord 0x20C 0x120C).AtRest 0x20C := by
  unfold State.AtRest; decide

theorem witness_MachineAtRestStaysAtRest : (atWord 0x20C 0x120C).AtRest 0x20C := by
  unfold State.AtRest; decide

theorem witness_ClsTurnsEveryCellOff : (atWord 0x200 0x00E0).AboutToRun 0x00E0 := by
  unfold State.AboutToRun; decide

theorem witness_JpSetsPcToTheAddress : (0x1FFF : Word).toNat = 0x1000 + (0xFFF : Addr).toNat ∧
    (atWord 0x200 0x1FFF).AboutToRun 0x1FFF := by
  unfold State.AboutToRun; decide

theorem witness_CallPushesTheReturnAddress : (0x2300 : Word).toNat = 0x2000 + (0x300 : Addr).toNat ∧
    State.AboutToRun { atWord 0x200 0x2300 with sp := 15 } 0x2300 ∧ (15 : Byte).toNat < 16 := by
  unfold State.AboutToRun; decide

theorem witness_RetPopsTheReturnAddress : (16 : Byte).toNat - 1 < 16 ∧ 0 < (16 : Byte).toNat ∧
    (1 : Byte).toNat - 1 < 16 ∧ 0 < (1 : Byte).toNat ∧
    State.AboutToRun { atWord 0x300 0x00EE with sp := 16 } 0x00EE := by
  unfold State.AboutToRun; decide

/-- CALL 0x204 at 0x200, RET at 0x204. -/
theorem witness_CallThenRetRoundTrip : ∃ s : State, s.sp.toNat < 16 ∧ s.AboutToRun (encode (.call 0x204)) ∧
    (0x204 : Addr).toNat ≤ 0xFFE ∧ s.mem.read (0x204 : Addr).toNat = 0x00 ∧
    s.mem.read ((0x204 : Addr).toNat + 1) = 0xEE :=
  ⟨{ State.reset with mem := [(0x200, 0x22), (0x201, 0x04), (0x205, 0xEE)] }, by unfold State.AboutToRun; decide⟩

theorem witness_StackIsWrittenOnlyByCall : ∃ (s t : State) (j : Fin 16), step s = .next t ∧ t.stack[j] ≠ s.stack[j] :=
  ⟨atWord 0x200 0x2300, _, 0, rfl, by decide⟩

theorem witness_CallAndRetStopWhereNoStackEntryExists : 16 < (State.reset.setSp 17).sp.toNat ∧
    16 < (State.reset.setSp 255).sp.toNat := by decide

theorem witness_SeImmediateSkipsIfEqual : (0x3FFF : Word).toNat = 0x3000 + 0x100 * (15 : Reg).val + (0xFF : Byte).toNat ∧
    (atWord 0xFFE 0x3FFF).AboutToRun 0x3FFF ∧ State.reset.pc.toNat ≤ 0x1000 := by
  unfold State.AboutToRun; decide

theorem witness_SneImmediateSkipsIfDifferent :
    (0x4F00 : Word).toNat = 0x4000 + 0x100 * (15 : Reg).val + (0x00 : Byte).toNat ∧
    (atWord 0xFFE 0x4F00).AboutToRun 0x4F00 ∧ State.reset.pc.toNat ≤ 0x1000 := by
  unfold State.AboutToRun; decide

theorem witness_SeRegisterSkipsIfEqual : (0x5120 : Word).toNat = 0x5000 + 0x100 * (1 : Reg).val + 0x10 * (2 : Reg).val ∧
    (atWord 0x200 0x5120).AboutToRun 0x5120 ∧ State.reset.pc.toNat ≤ 0x1000 := by
  unfold State.AboutToRun; decide

theorem witness_SeAndSneAreComplements : ∃ (s : State) (m : Memory),
    (0x332A : Word).toNat = 0x3000 + 0x100 * (3 : Reg).val + (0x2A : Byte).toNat ∧
    (0x432A : Word).toNat = 0x4000 + 0x100 * (3 : Reg).val + (0x2A : Byte).toNat ∧
    s.AboutToRun 0x332A ∧ State.AboutToRun { s with mem := m } 0x432A :=
  ⟨atWord 0x200 0x332A, [(0x200, 0x43), (0x201, 0x2A)], by unfold State.AboutToRun; decide⟩

theorem witness_LdImmediateLoadsTheRegister :
    (0x6FFF : Word).toNat = 0x6000 + 0x100 * (15 : Reg).val + (0xFF : Byte).toNat ∧
    (atWord 0x200 0x6FFF).AboutToRun 0x6FFF ∧ (0 : Reg) ≠ 15 := by
  unfold State.AboutToRun; decide

theorem witness_AddImmediateWrapsAndSetsNoFlag :
    (0x70FF : Word).toNat = 0x7000 + 0x100 * (0 : Reg).val + (0xFF : Byte).toNat ∧
    (atWord 0x200 0x70FF).AboutToRun 0x70FF ∧ (15 : Reg) ≠ 0 := by
  unfold State.AboutToRun; decide

theorem witness_VfIsAnOrdinaryRegister : ∃ (i : Instr) (s t : State), exec i s = .next t ∧
    t.v[(0xF : Reg)] ≠ s.v[(0xF : Reg)] :=
  ⟨.ldImm 0xF 1, State.reset, _, rfl, by decide⟩

theorem witness_GeneralRegistersAreTouchedOnlyWhereSelected : (∃ (i : Instr) (s t : State) (r : Reg),
    exec i s = .next t ∧ t.v[r] ≠ s.v[r]) ∧ (2 : Reg) ∉ selectedRegs (.seReg 0 1) ∧ selectedRegs .ret = [] ∧
    HostOp.tickTimer ≠ .reset ∧ HostOp.tickTimer ≠ .step :=
  ⟨⟨.addImm 0 1, State.reset, _, 0, rfl, by decide⟩, by decide⟩

theorem witness_FrameOfLoadAndAdd : ∃ t, exec (.addImm 0 1) State.reset = .next t := ⟨_, rfl⟩

theorem witness_FrameOfJumpAndSkips : ∃ t, exec (.seReg 0 1) State.reset = .next t := ⟨_, rfl⟩

theorem witness_FrameOfCls : ∃ t, exec .cls State.reset = .next t := ⟨_, rfl⟩

/-- Every clause: a CALL with room on the stack and one with none left, a RET with an entry and one with none. -/
theorem witness_FrameOfCallAndRet : (∃ t, exec (.call 0x300) State.reset = .next t) ∧
    (∃ t, exec (.call 0x300) (State.reset.setSp 16) = .next t ∧ (State.reset.setSp 16).sp = 16) ∧
    (∃ t, exec .ret (State.reset.setSp 16) = .next t) ∧
    (∃ t, exec .ret State.reset = .next t ∧ State.reset.sp = 0) :=
  ⟨⟨_, rfl⟩, ⟨_, rfl, rfl⟩, ⟨_, rfl⟩, ⟨_, rfl, rfl⟩⟩

theorem witness_UnknownOpcodeHaltsTheMachine : (atWord 0x200 0x8124).AboutToRun 0x8124 ∧ decode 0x8124 = none ∧
    nextField State.halt (step (atWord 0x200 0x8124)) = some true := by
  unfold State.AboutToRun; decide

theorem witness_CallOnFullStackHaltsTheMachine : (0x2300 : Word).toNat = 0x2000 + (0x300 : Addr).toNat ∧
    State.AboutToRun { atWord 0x200 0x2300 with sp := 16 } 0x2300 ∧
    nextField State.halt (step { atWord 0x200 0x2300 with sp := 16 }) = some true := by
  unfold State.AboutToRun; decide

theorem witness_RetOnEmptyStackHaltsTheMachine : (atWord 0x300 0x00EE).AboutToRun 0x00EE ∧
    (atWord 0x300 0x00EE).sp = 0 ∧ nextField State.halt (step (atWord 0x300 0x00EE)) = some true := by
  unfold State.AboutToRun; decide

theorem witness_FetchBeyondMemoryHaltsTheMachine : (State.reset.setPc 0xFFF).halt = false ∧
    0xFFE < (State.reset.setPc 0xFFF).pc.toNat ∧
    nextField State.halt (step (State.reset.setPc 0xFFF)) = some true := by decide

/-- Both clauses: a Step that raises a fault, and one that does not. -/
theorem witness_FaultIsReportedToTheDriverOnce :
    (∃ t, step Session.reset.machine = .next t ∧ Session.reset.machine.halt = false ∧ t.halt = true) ∧
    (∃ t, step (atWord 0x200 0x1208) = .next t ∧ t.halt = false) := ⟨⟨_, rfl, rfl, rfl⟩, ⟨_, rfl, rfl⟩⟩

theorem witness_RunThatEndsUnhaltedHadNoFault : ∃ t, Host.Core.run core 1 (atWord 0x200 0x1208) = .next t ∧
    t.halt = false := ⟨_, rfl, rfl⟩

theorem witness_StepKeepsTheInvariant : ∃ s t : State, s.Inv ∧ step s = .next t ∧ t.pc = 0x1000 :=
  ⟨invWitness, _, invWitness_inv, rfl, by decide⟩

theorem witness_HostOperationsKeepTheInvariant : ∃ (u u' : Session) (reply : Reply), u.machine.Inv ∧
    hostOp someGlyphs .step u = .next (u', reply) :=
  ⟨⟨invWitness, .running⟩, _, _, invWitness_inv, rfl⟩

theorem witness_EveryScheduleFromResetStaysSane : (∃ (u u' : Session) (reply : Reply),
      u.machine.Inv ∧ u.machine.Quiet ∧ hostOp someGlyphs .step u = .next (u', reply)) ∧
    ∃ p, hostRun someGlyphs [.setKey 15 true, .tickTimer, .step, .readDisplay] Session.reset = .next p :=
  ⟨⟨⟨invWitness, .running⟩, _, _, invWitness_inv, ⟨rfl, fun y x => Display.off_cell y x⟩, rfl⟩, ⟨_, rfl⟩⟩

theorem witness_DisplayIsWrittenOnlyByCls : ∃ s t : State, step s = .next t ∧ t.disp ≠ s.disp := by
  refine ⟨{ atWord 0x200 0x00E0 with disp := Vector.replicate 32 (Vector.replicate 64 true) }, _, rfl, ?_⟩
  intro h
  have h0 := congrArg (fun d : Display => d[0][0]) h
  exact absurd h0 (by decide)

theorem witness_IndexRegisterIsNeitherReadNorWritten : HostOp.step ≠ .reset := by decide

theorem witness_KeyFlagsAreTouchedOnlyBySetKey : HostOp.step ≠ .reset ∧
    ∀ index pressed, HostOp.step ≠ .setKey index pressed := by simp

theorem witness_TimerIsTouchedOnlyByTickTimer : HostOp.step ≠ .reset ∧ HostOp.step ≠ .tickTimer := by decide

/-- The empty image and the longest. -/
theorem witness_LoadPlacesImageAndGlyphTable : State.reset.mem.wf = true ∧ ([] : List Byte).length ≤ 3584 ∧
    (List.replicate 3584 (0 : Byte)).length ≤ 3584 ∧ Session.reset.machine = State.reset ∧
    Session.reset.phase = .fresh :=
  ⟨rfl, by decide, Nat.le_of_eq List.length_replicate, rfl, rfl⟩

theorem witness_FirstImageByteIsTheHighByte : ([0x60, 0x05] : List Byte).length ≤ 3584 ∧
    ([0x60] : List Byte).length ≤ 3584 := by decide

theorem witness_OversizedLoadChangesNothing : 3584 < (List.replicate 3585 (0 : Byte)).length ∧
    Session.reset.phase = .fresh :=
  ⟨Nat.lt_of_lt_of_eq (by decide : 3584 < 3585) List.length_replicate.symm, rfl⟩

/-- Each phase, a successful Load, a Step, another operation, and a schedule without Load and Reset after a Step. -/
theorem witness_LoadHappensOnceBeforeTheFirstStep :
    Session.phase ⟨State.reset, .loaded⟩ = .loaded ∧ Session.phase ⟨State.reset, .running⟩ = .running ∧
    (∃ u', hostOp someGlyphs (.load []) Session.reset = .next (u', .done)) ∧
    (∃ u' reply, hostOp someGlyphs .step Session.reset = .next (u', reply)) ∧
    (∃ u' reply, hostOp someGlyphs .tickTimer Session.reset = .next (u', reply)) ∧
    (∃ p, hostRun someGlyphs [.tickTimer, .step, .setKey 0 true] ⟨State.reset, .running⟩ = .next p) ∧
    HostOp.reset ∉ [HostOp.tickTimer, .step, .setKey 0 true] :=
  ⟨rfl, rfl, ⟨_, rfl⟩, ⟨_, _, rfl⟩, ⟨_, _, rfl⟩, ⟨_, rfl⟩, by decide⟩

theorem witness_SetKeySetsOneFlag : 16 ≤ 16 ∧ 15 < 16 := by decide

end Sys2Proof.Tests
end

section
/-! What one instruction does to the general registers (10_state.md R21, R22), and the three state fields
that no instruction uses: I (R23), DT (R29) and the key flags (R30). The second part shows that replacing what
these fields hold commutes with every handler, with Step, and with every host operation that does not name the field. -/

namespace Sys2Proof.Machine

variable {s t : State}

/-! ## The general registers -/

/-- The adder in numbers (R191). -/
theorem addBytes_toNat (a b : Byte) : (addBytes a b).toNat = (a.toNat + b.toNat) % 256 := BitVec.toNat_add a b

/-- LD and ADD are the only handlers that write a general register, and each writes the one it names. -/
theorem exec_keeps_v_or_writes_one {i : Instr} (h : exec i s = .next t) :
    t.v = s.v ∨ (∃ x kk, i = .ldImm x kk ∧ t = s.writeV x kk) ∨
    (∃ x kk, i = .addImm x kk ∧ t = s.writeV x (addBytes (s.readV x) kk)) := by
  rcases exec_cases h with ⟨-, rfl⟩ | ⟨_, -, rfl⟩ | ⟨_, _, -, rfl⟩ | ⟨_, _, -, rfl⟩ | ⟨_, _, -, rfl⟩ |
    hld | hadd | ⟨_, _, -, rfl⟩ | ⟨_, -, -, rfl⟩ | ⟨_, -, -, rfl⟩ | ⟨-, -, rfl⟩
  · exact .inl s.clearDisplay_v
  · exact .inl (s.setPc_v _)
  · exact .inl (s.skipIf_v _)
  · exact .inl (s.skipIf_v _)
  · exact .inl (s.skipIf_v _)
  · exact .inr (.inl hld)
  · exact .inr (.inr hadd)
  · exact .inl rfl
  · exact .inl (s.raise_v _ _ _)
  · exact .inl rfl
  · exact .inl (s.raise_v _ _ _)

/-- A register that an instruction changes is the one an LD or an ADD names, and holds kk or the sum (R21, R22). -/
theorem exec_changes_register {i : Instr} {r : Reg} (h : exec i s = .next t) (hne : t.v[r] ≠ s.v[r]) :
    (∃ kk, i = .ldImm r kk ∧ t.v[r] = kk) ∨
    (∃ kk, i = .addImm r kk ∧ t.v[r].toNat = (s.v[r].toNat + kk.toNat) % 256) := by
  have named {x : Reg} {b : Byte} (ht : t = s.writeV x b) : r = x := by
    subst ht
    by_contra hrx
    exact hne (s.readV_writeV_other hrx b)
  rcases exec_keeps_v_or_writes_one h with hv | ⟨x, kk, rfl, ht⟩ | ⟨x, kk, rfl, ht⟩
  · exact absurd (by rw [hv]) hne
  · obtain rfl := named ht
    subst ht
    exact .inl ⟨kk, rfl, s.readV_writeV_self r kk⟩
  · obtain rfl := named ht
    subst ht
    exact .inr ⟨kk, rfl, (congrArg BitVec.toNat (s.readV_writeV_self r _)).trans (addBytes_toNat _ _)⟩

/-- LD completes on every register alike (R190): the named register is kk, the rest of the state is kept. -/
theorem exec_ldImm_spec (x : Reg) (kk : Byte) (s : State) : ∃ t, exec (.ldImm x kk) s = .next t ∧ t.v[x] = kk ∧
    (∀ r : Reg, r ≠ x → t.v[r] = s.v[r]) ∧ t = { s with v := t.v } :=
  ⟨s.writeV x kk, exec_ldImm x kk, s.readV_writeV_self x kk, fun _ hr => s.readV_writeV_other hr kk, rfl⟩

/-- ADD completes on every register alike (R191): the named register is the sum, the rest of the state is kept. -/
theorem exec_addImm_spec (x : Reg) (kk : Byte) (s : State) : ∃ t, exec (.addImm x kk) s = .next t ∧
    t.v[x].toNat = (s.v[x].toNat + kk.toNat) % 256 ∧
    (∀ r : Reg, r ≠ x → t.v[r] = s.v[r]) ∧ t = { s with v := t.v } :=
  ⟨s.writeV x (addBytes (s.readV x) kk), exec_addImm x kk,
    (congrArg BitVec.toNat (s.readV_writeV_self x _)).trans (addBytes_toNat _ _),
    fun _ hr => s.readV_writeV_other hr _, rfl⟩

/-- Settles O34: the clause on what changes VF is `exec_changes_register` at VF, the other two are the specs of LD and
ADD, once at VF and once at the other register. -/
theorem vfIsAnOrdinaryRegister : Obligations.VfIsAnOrdinaryRegister := by
  refine ⟨fun _ _ _ => exec_changes_register, fun x kk s => ?_, fun x kk s => ?_⟩
  · obtain ⟨t, ht, hval, hkeep, hframe⟩ := exec_ldImm_spec 0xF kk s
    obtain ⟨u, hu, hval', hkeep', hframe'⟩ := exec_ldImm_spec x kk s
    exact ⟨t, u, ht, hu, hval, hval', hkeep, hkeep', hframe, hframe'⟩
  · obtain ⟨t, ht, hval, hkeep, hframe⟩ := exec_addImm_spec 0xF kk s
    obtain ⟨u, hu, hval', hkeep', hframe'⟩ := exec_addImm_spec x kk s
    exact ⟨t, u, ht, hu, hval, hval', hkeep, hkeep', hframe, hframe'⟩

/-! ## Step in each of its cases (R127) -/

theorem step_of_halted (h : s.halt = true) : step s = .next s := by
  simp only [step, h, if_true]

theorem step_of_fetch_none (hrun : s.halt = false) (hf : s.fetchWord = none) :
    step s = .next s.raiseFetchOutOfRange := by
  simp only [step, hrun, Bool.false_eq_true, if_false, hf]

theorem step_of_unknown {w : Word} (hw : s.AboutToRun w) (hd : decode w = none) :
    step s = .next (s.advancePc.raiseUnknownOpcode w) := by
  obtain ⟨hrun, hf⟩ := aboutToRun_iff.1 hw
  simp only [step, hrun, Bool.false_eq_true, if_false, hf, hd]

theorem step_of_decoded {w : Word} {i : Instr} (hw : s.AboutToRun w) (hd : decode w = some i) :
    step s = exec i s.advancePc := by
  obtain ⟨hrun, hf⟩ := aboutToRun_iff.1 hw
  simp only [step, hrun, Bool.false_eq_true, if_false, hf, hd]

/-! ## The fields no instruction uses -/

/-- The state with what I, DT and the key flags hold replaced, each as a function of what it held. -/
def State.mapIdle (fi : Word → Word) (fd : Byte → Byte) (fk : Vector Bool 16 → Vector Bool 16) (s : State) : State :=
  { s with i := fi s.i, dt := fd s.dt, keys := fk s.keys }

section
variable (fi : Word → Word) (fd : Byte → Byte) (fk : Vector Bool 16 → Vector Bool 16)

theorem State.mapIdle_skipIf (s : State) (c : Bool) :
    (s.mapIdle fi fd fk).skipIf c = (s.skipIf c).mapIdle fi fd fk := by
  cases c <;> rfl

/-- CALL, in its three cases by SP, commutes with a change of the idle fields. -/
theorem exec_call_mapIdle (nnn : Addr) (s : State) :
    exec (.call nnn) (s.mapIdle fi fd fk) = onNext (State.mapIdle fi fd fk) (exec (.call nnn) s) := by
  rcases Nat.lt_trichotomy s.sp.toNat 16 with hroom | hfull | hnone
  · rw [exec_call_room nnn hroom, exec_call_room (s := s.mapIdle fi fd fk) nnn hroom]
    rfl
  · have hsp : s.sp = 16 := BitVec.eq_of_toNat_eq hfull
    rw [exec_call_full nnn hsp, exec_call_full (s := s.mapIdle fi fd fk) nnn hsp]
    rfl
  · rw [exec_call_none nnn hnone, exec_call_none (s := s.mapIdle fi fd fk) nnn hnone]
    rfl

/-- RET, in its three cases by SP, commutes with a change of the idle fields. -/
theorem exec_ret_mapIdle (s : State) :
    exec .ret (s.mapIdle fi fd fk) = onNext (State.mapIdle fi fd fk) (exec .ret s) := by
  by_cases hempty : s.sp = 0
  · rw [exec_ret_empty hempty, exec_ret_empty (s := s.mapIdle fi fd fk) hempty]
    rfl
  · have hpos : 0 < s.sp.toNat := Nat.pos_of_ne_zero fun h => hempty (BitVec.eq_of_toNat_eq h)
    by_cases hlive : s.sp.toNat - 1 < 16
    · rw [exec_ret_live hpos hlive, exec_ret_live (s := s.mapIdle fi fd fk) hpos hlive]
      rfl
    · have hnone : 16 < s.sp.toNat := by omega
      rw [exec_ret_none hnone, exec_ret_none (s := s.mapIdle fi fd fk) hnone]
      rfl

/-- Every handler does the same whatever the idle fields hold, and leaves them as they are. -/
theorem exec_mapIdle (i : Instr) (s : State) :
    exec i (s.mapIdle fi fd fk) = onNext (State.mapIdle fi fd fk) (exec i s) := by
  cases i with
  | cls => rfl
  | ret => exact exec_ret_mapIdle fi fd fk s
  | jp nnn => rfl
  | call nnn => exact exec_call_mapIdle fi fd fk nnn s
  | seImm x kk => exact congrArg Host.Outcome.next (State.mapIdle_skipIf fi fd fk s _)
  | sneImm x kk => exact congrArg Host.Outcome.next (State.mapIdle_skipIf fi fd fk s _)
  | seReg x y => exact congrArg Host.Outcome.next (State.mapIdle_skipIf fi fd fk s _)
  | ldImm x kk => rfl
  | addImm x kk => rfl

/-- So does Step: HALT, PC and MEM, which decide what it runs, are not idle. -/
theorem step_mapIdle (s : State) : step (s.mapIdle fi fd fk) = onNext (State.mapIdle fi fd fk) (step s) := by
  cases hhalt : s.halt with
  | true =>
    rw [step_of_halted hhalt, step_of_halted (s := s.mapIdle fi fd fk) hhalt]
    rfl
  | false =>
    cases hf : s.fetchWord with
    | none =>
      rw [step_of_fetch_none hhalt hf, step_of_fetch_none (s := s.mapIdle fi fd fk) hhalt hf]
      rfl
    | some w =>
      have hw : s.AboutToRun w := aboutToRun_iff.2 ⟨hhalt, hf⟩
      have hw' : (s.mapIdle fi fd fk).AboutToRun w := hw
      cases hd : decode w with
      | none =>
        rw [step_of_unknown hw hd, step_of_unknown hw' hd]
        rfl
      | some i =>
        rw [step_of_decoded hw hd, step_of_decoded hw' hd]
        exact exec_mapIdle fi fd fk i s.advancePc

/-! ## The host operations and the idle fields -/

/-- Load writes MEM only, and what it writes does not depend on the idle fields. -/
theorem loadWith_mapIdle (g : GlyphTable) (bytes : List Byte) (s : State) :
    loadWith g bytes (s.mapIdle fi fd fk) = (loadWith g bytes s).map (State.mapIdle fi fd fk) := by
  unfold loadWith
  split
  · rw [Option.map_map]
    rfl
  · rfl

theorem hostLoad_mapIdle (g : GlyphTable) (bytes : List Byte) (u : Session) :
    hostLoad g bytes (u.onMachine (State.mapIdle fi fd fk)) =
      onNext (fun p => (p.1.onMachine (State.mapIdle fi fd fk), p.2)) (hostLoad g bytes u) := by
  obtain ⟨m, phase⟩ := u
  cases phase with
  | running => rfl
  | loaded => rfl
  | fresh =>
    simp only [hostLoad, Session.onMachine, loadWith_mapIdle]
    cases loadWith g bytes m <;> rfl

theorem hostStep_mapIdle (u : Session) :
    hostStep (u.onMachine (State.mapIdle fi fd fk)) =
      onNext (fun p => (p.1.onMachine (State.mapIdle fi fd fk), p.2)) (hostStep u) := by
  simp only [hostStep, Session.onMachine, step_mapIdle]
  cases step u.machine <;> rfl

/-- TickTimer reads and writes none of the idle fields but DT. -/
theorem tickTimer_mapIdle (s : State) : tickTimer (s.mapIdle fi id fk) = (tickTimer s).mapIdle fi id fk := by
  rw [tickTimer_eq, tickTimer_eq]
  rfl

/-- SetKey reads and writes none of the idle fields but the key flags. -/
theorem setKey_mapIdle (index : Nat) (pressed : Bool) (s : State) :
    setKey index pressed (s.mapIdle fi fd id) = (setKey index pressed s).map (State.mapIdle fi fd id) := by
  unfold setKey
  split <;> rfl

theorem hostSetKey_mapIdle (index : Nat) (pressed : Bool) (u : Session) :
    hostSetKey index pressed (u.onMachine (State.mapIdle fi fd id)) =
      onNext (fun p => (p.1.onMachine (State.mapIdle fi fd id), p.2)) (hostSetKey index pressed u) := by
  simp only [hostSetKey, Session.onMachine, setKey_mapIdle]
  cases setKey index pressed u.machine <;> rfl

/-- Every host operation but Reset does the same whatever the idle fields hold, and leaves them as they are, where
DT is kept for a TickTimer and the key flags for a SetKey. -/
theorem hostOp_mapIdle (g : GlyphTable) {op : HostOp} (u : Session) (hreset : op ≠ .reset)
    (htick : op = .tickTimer → fd = id) (hkey : ∀ index pressed, op = .setKey index pressed → fk = id) :
    hostOp g op (u.onMachine (State.mapIdle fi fd fk)) =
      onNext (fun p => (p.1.onMachine (State.mapIdle fi fd fk), p.2)) (hostOp g op u) := by
  cases op with
  | reset => exact absurd rfl hreset
  | load bytes => exact hostLoad_mapIdle fi fd fk g bytes u
  | step => exact hostStep_mapIdle fi fd fk u
  | tickTimer =>
    obtain rfl := htick rfl
    simp only [hostOp, Session.onMachine, tickTimer_mapIdle, onNext]
  | setKey index pressed =>
    obtain rfl := hkey index pressed rfl
    exact hostSetKey_mapIdle fi fd index pressed u
  | readDisplay => rfl

end

/-- Settles O51: a change of I alone is a change of the idle fields that keeps DT and the key flags. -/
theorem indexRegisterIsNeitherReadNorWritten : Obligations.IndexRegisterIsNeitherReadNorWritten :=
  fun g _ u i hreset => hostOp_mapIdle (fun _ => i) id id g u hreset (fun _ => rfl) (fun _ _ _ => rfl)

/-- Settles O52: a change of the key flags alone is a change of the idle fields that keeps DT, and no SetKey is
among the operations. -/
theorem keyFlagsAreTouchedOnlyBySetKey : Obligations.KeyFlagsAreTouchedOnlyBySetKey :=
  fun g _ u keys hreset hkey => hostOp_mapIdle id id (fun _ => keys) g u hreset (fun _ => rfl)
    fun index pressed e => absurd e (hkey index pressed)

end Sys2Proof.Machine
end

section
/-! Memory as the instructions and Load use it (20_memory.md): a fetch answers the two bytes at PC, high byte first
(R64, R70), nothing else in a Step reads MEM and nothing in it writes MEM (R64, R70), and Load puts the image's bytes
and the glyph table's in order, with no byte swapped (R65, R232). -/

namespace Sys2Proof.Machine

variable {s t : State}

/-! ## Fetch -/

/-- The two bytes of a fetched word are the cells at PC and PC + 1 (R64). -/
theorem fetchWord_bytes {w : Word} (h : s.fetchWord = some w) :
    highByte w = s.mem.read s.pc.toNat ∧ lowByte w = s.mem.read (s.pc.toNat + 1) := by
  obtain ⟨-, hjoin⟩ := fetchWord_eq_some.1 h
  obtain ⟨hhi, hlo⟩ := joinBytes_eq_iff.1 hjoin
  exact ⟨hhi.symm, hlo.symm⟩

/-- A word as the number its two bytes spell. -/
theorem toNat_eq_bytes (w : Word) : w.toNat = 256 * (highByte w).toNat + (lowByte w).toNat := by
  rw [← joinBytes_toNat, joinBytes_bytes]

/-- Fetch answers everywhere its two bytes are inside MEM (R69, R70). -/
theorem fetchWord_of_pc_le (h : s.pc.toNat ≤ 0xFFE) :
    s.fetchWord = some (joinBytes (s.mem.read s.pc.toNat) (s.mem.read (s.pc.toNat + 1))) :=
  fetchWord_eq_some.2 ⟨h, rfl⟩

/-! ## Handlers and MEM -/

/-- The state with MEM replaced. -/
def State.withMem (m : Memory) (s : State) : State := { s with mem := m }

@[simp] theorem State.withMem_mem (m : Memory) (s : State) : (s.withMem m).mem = m := rfl

theorem State.withMem_skipIf (m : Memory) (s : State) (c : Bool) :
    (s.withMem m).skipIf c = (s.skipIf c).withMem m := by
  cases c <;> rfl

/-- CALL, in its three cases by SP, commutes with a replacement of MEM: the return address goes to STACK. -/
theorem exec_call_withMem (nnn : Addr) (m : Memory) (s : State) :
    exec (.call nnn) (s.withMem m) = onNext (State.withMem m) (exec (.call nnn) s) := by
  rcases Nat.lt_trichotomy s.sp.toNat 16 with hroom | hfull | hnone
  · rw [exec_call_room nnn hroom, exec_call_room (s := s.withMem m) nnn hroom]
    rfl
  · have hsp : s.sp = 16 := BitVec.eq_of_toNat_eq hfull
    rw [exec_call_full nnn hsp, exec_call_full (s := s.withMem m) nnn hsp]
    rfl
  · rw [exec_call_none nnn hnone, exec_call_none (s := s.withMem m) nnn hnone]
    rfl

/-- RET, in its three cases by SP, commutes with a replacement of MEM: the return address comes from STACK. -/
theorem exec_ret_withMem (m : Memory) (s : State) :
    exec .ret (s.withMem m) = onNext (State.withMem m) (exec .ret s) := by
  rcases Nat.eq_zero_or_pos s.sp.toNat with hzero | hpos
  · have hsp : s.sp = 0 := BitVec.eq_of_toNat_eq hzero
    rw [exec_ret_empty hsp, exec_ret_empty (s := s.withMem m) hsp]
    rfl
  · rcases Nat.lt_or_ge 16 s.sp.toNat with hnone | hle
    · rw [exec_ret_none hnone, exec_ret_none (s := s.withMem m) hnone]
      rfl
    · have hlive : s.sp.toNat - 1 < 16 := by omega
      rw [exec_ret_live hpos hlive, exec_ret_live (s := s.withMem m) hpos hlive]
      rfl

/-- Every handler does the same whatever MEM holds, and leaves it as it is (R64). -/
theorem exec_withMem (i : Instr) (m : Memory) (s : State) :
    exec i (s.withMem m) = onNext (State.withMem m) (exec i s) := by
  cases i with
  | cls => rfl
  | ret => exact exec_ret_withMem m s
  | jp nnn => rfl
  | call nnn => exact exec_call_withMem nnn m s
  | seImm x kk => exact congrArg Host.Outcome.next (State.withMem_skipIf m s _)
  | sneImm x kk => exact congrArg Host.Outcome.next (State.withMem_skipIf m s _)
  | seReg x y => exact congrArg Host.Outcome.next (State.withMem_skipIf m s _)
  | ldImm x kk => rfl
  | addImm x kk => rfl

/-- Settles O4: the two bytes of the fetched word, as fields and as a number, and `exec_withMem`. -/
theorem fetchIsBigEndianAndTheOnlyMemoryAccess : Obligations.FetchIsBigEndianAndTheOnlyMemoryAccess := by
  refine ⟨fun s w hw => ?_, fun i s m => exec_withMem i m s⟩
  obtain ⟨hhi, hlo⟩ := fetchWord_bytes hw
  refine ⟨hhi, hlo, ?_⟩
  rw [← hhi, ← hlo]
  exact toNat_eq_bytes w

/-- A handler that answers keeps MEM: replacing MEM by what it already is changes nothing before it runs, and so
nothing after. -/
theorem exec_keeps_mem {i : Instr} (h : exec i s = .next t) : t.mem = s.mem := by
  have hsame : exec i s = onNext (State.withMem s.mem) (exec i s) := exec_withMem i s.mem s
  rw [h] at hsame
  have ht : t = t.withMem s.mem := Host.Outcome.next.inj hsame
  exact (congrArg State.mem ht).trans (State.withMem_mem s.mem t)

/-- No Step writes MEM, in any of its cases (R70). -/
theorem step_keeps_mem (h : step s = .next t) : t.mem = s.mem := by
  rcases step_cases h with ⟨-, rfl⟩ | ⟨-, -, rfl⟩ | ⟨w, -, -, rfl⟩ | ⟨w, i, -, -, hexec⟩
  · rfl
  · exact s.raiseFetchOutOfRange_mem
  · exact s.advancePc.raiseUnknownOpcode_mem w
  · exact (exec_keeps_mem hexec).trans s.advancePc_mem

/-- Settles O5: a fetch up to 0xFFE answers the two bytes at PC, and a Step keeps MEM as data, so every cell of it. -/
theorem memoryIsFlatReadableAndNotWrittenByAnyStep : Obligations.MemoryIsFlatReadableAndNotWrittenByAnyStep := by
  refine ⟨fun s hpc => ?_, fun s t hstep => ?_⟩
  · have hfetch := fetchWord_of_pc_le hpc
    exact ⟨_, hfetch, fetchWord_bytes hfetch⟩
  · have hmem := step_keeps_mem hstep
    exact ⟨hmem, fun a => by rw [hmem]⟩

/-! ## Load -/

/-- What memory holds after Load of an image that fits, on a memory in canonical form: the image from 0x200, the glyph
table from 0x050, and every cell outside both as it was (R65, R232). -/
theorem loadWith_reads (g : GlyphTable) {bytes : List Byte} (hwf : s.mem.wf = true) (hlen : bytes.length ≤ 3584) :
    ∃ m : Memory, loadWith g bytes s = some (s.withMem m) ∧ m.wf = true ∧
      (∀ (k : Nat) (hk : k < bytes.length), m.read (0x200 + k) = bytes[k]) ∧
      (∀ (k : Nat) (hk : k < 80), m.read (0x50 + k) = g[k]) ∧
      (∀ a, (a < 0x50 ∨ 0xA0 ≤ a) → (a < 0x200 ∨ 0x200 + bytes.length ≤ a) → m.read a = s.mem.read a) := by
  have hglyphs : g.toList.length = 80 := g.length_toList
  obtain ⟨m₁, hcopy₁, hwf₁, himage, hframe₁⟩ := memWriteBytes_spec bytes (a := 0x200) hwf (by omega)
  obtain ⟨m₂, hcopy₂, hwf₂, htable, hframe₂⟩ := memWriteBytes_spec g.toList (a := 0x50) hwf₁ (by omega)
  rw [hglyphs] at hframe₂
  refine ⟨m₂, ?_, hwf₂, fun k hk => ?_, fun k hk => ?_, fun a hglyph himg => ?_⟩
  · simp only [loadWith, hlen, if_true, hcopy₁, Option.bind_some, hcopy₂, Option.map_some]
    rfl
  · rw [hframe₂ _ (by omega), himage k hk]
  · rw [htable k (by omega), Vector.getElem_toList]
  · rw [hframe₂ a hglyph, hframe₁ a himg]

/-- Settles O55: on the reset machine PC is 0x200, so the fetched word's bytes are image bytes 0 and 1. -/
theorem firstImageByteIsTheHighByte : Obligations.FirstImageByteIsTheHighByte := by
  intro g hi rest hlen
  obtain ⟨m, hload, -, himage, -, -⟩ := loadWith_reads (s := State.reset) g rfl hlen
  have hfetch := fetchWord_of_pc_le (s := State.reset.withMem m) (by decide : Config.resetPc.toNat ≤ 0xFFE)
  obtain ⟨hhigh, hlow⟩ := fetchWord_bytes hfetch
  refine ⟨_, _, hload, hfetch, ?_, fun lo more hrest => ?_, himage⟩
  · rw [← highByte_toNat, hhigh]
    exact congrArg BitVec.toNat (himage 0 (Nat.zero_lt_succ _))
  · subst hrest
    rw [← lowByte_toNat, hlow]
    exact congrArg BitVec.toNat (himage 1 (Nat.succ_lt_succ (Nat.zero_lt_succ _)))

end Sys2Proof.Machine
end

section
/-! The Step cycle (40_step_cycle.md): a Step runs the decoded instruction with PC already at a + 2 (R123, R124), and
after that only the skips, JP, CALL and RET write PC (R125). -/

namespace Sys2Proof.Machine

variable {s t : State} {w : Word} {i : Instr}

/-- Where a word is fetched the pre-increment does not wrap, and ends at most at 0x1000 (R123). -/
theorem pc_add_two_of_aboutToRun (hw : s.AboutToRun w) :
    (s.pc + 2).toNat = s.pc.toNat + 2 ∧ (s.pc + 2).toNat ≤ 0x1000 := by
  obtain ⟨-, hpc, -, -⟩ := hw
  have hadd : (s.pc + 2).toNat = s.pc.toNat + 2 := pc_add_two_toNat hpc
  exact ⟨hadd, by omega⟩

/-- Settles O14: `advancePc`, on which the Step runs the handler, is the state with PC at a + 2. -/
theorem stepRunsTheDecodedInstruction : Obligations.StepRunsTheDecodedInstruction :=
  fun _ _ _ hw hd => ⟨step_of_decoded hw hd, pc_add_two_of_aboutToRun hw⟩

/-- The instructions whose handler leaves PC to the pre-increment (R125). -/
def leavesPc : Instr → Bool
  | .cls | .ldImm _ _ | .addImm _ _ => true
  | .ret | .jp _ | .call _ | .seImm _ _ | .sneImm _ _ | .seReg _ _ => false

/-- What is left once CLS, LD and ADD are taken out of the instruction set. -/
theorem control_of_leavesPc_eq_false (hi : leavesPc i = false) :
    (∃ nnn, i = .jp nnn) ∨ (∃ nnn, i = .call nnn) ∨ i = .ret ∨
    (∃ x kk, i = .seImm x kk) ∨ (∃ x kk, i = .sneImm x kk) ∨ ∃ x y, i = .seReg x y := by
  cases i with
  | cls => exact nomatch hi
  | ldImm x kk => exact nomatch hi
  | addImm x kk => exact nomatch hi
  | jp nnn => exact .inl ⟨nnn, rfl⟩
  | call nnn => exact .inr (.inl ⟨nnn, rfl⟩)
  | ret => exact .inr (.inr (.inl rfl))
  | seImm x kk => exact .inr (.inr (.inr (.inl ⟨x, kk, rfl⟩)))
  | sneImm x kk => exact .inr (.inr (.inr (.inr (.inl ⟨x, kk, rfl⟩))))
  | seReg x y => exact .inr (.inr (.inr (.inr (.inr ⟨x, y, rfl⟩))))

/-- CLS writes the display and LD and ADD a register, none of them PC. -/
theorem exec_keeps_pc (hi : leavesPc i = true) (h : exec i s = .next t) : t.pc = s.pc := by
  cases i with
  | cls =>
    obtain rfl := Host.Outcome.next.inj (exec_cls.symm.trans h)
    exact s.clearDisplay_pc
  | ldImm x kk =>
    obtain rfl := Host.Outcome.next.inj ((exec_ldImm x kk).symm.trans h)
    exact s.writeV_pc _ _
  | addImm x kk =>
    obtain rfl := Host.Outcome.next.inj ((exec_addImm x kk).symm.trans h)
    exact s.writeV_pc _ _
  | ret => exact nomatch hi
  | jp nnn => exact nomatch hi
  | call nnn => exact nomatch hi
  | seImm x kk => exact nomatch hi
  | sneImm x kk => exact nomatch hi
  | seReg x y => exact nomatch hi

/-- A Step on CLS, LD or ADD ends at a + 2, where the pre-increment put PC. -/
theorem step_pc_of_leavesPc (hw : s.AboutToRun w) (hd : decode w = some i) (hi : leavesPc i = true)
    (h : step s = .next t) : t.pc.toNat = s.pc.toNat + 2 := by
  have hexec : exec i s.advancePc = .next t := (step_of_decoded hw hd).symm.trans h
  rw [exec_keeps_pc hi hexec, s.advancePc_pc]
  exact (pc_add_two_of_aboutToRun hw).1

/-- Settles O18: an instruction that moves PC off the pre-increment's value does not leave PC alone, so it is not
CLS, LD or ADD, and is one of the six others. -/
theorem onlyControlInstructionsWritePc : Obligations.OnlyControlInstructionsWritePc := by
  refine ⟨fun i s t hexec hne => ?_, fun s t w i hw hd hstep hne => ?_⟩
  · have writes : ¬ leavesPc i = true := fun hi => hne (exec_keeps_pc hi hexec)
    exact ⟨fun e => writes (e ▸ rfl), fun _ _ e => writes (e ▸ rfl), fun _ _ e => writes (e ▸ rfl)⟩
  · have writes : ¬ leavesPc i = true := fun hi => hne (step_pc_of_leavesPc hw hd hi hstep)
    exact control_of_leavesPc_eq_false (Bool.eq_false_of_not_eq_true writes)

end Sys2Proof.Machine
end

section
/-! CLS (41_display_clear.md R140): one handler spec from every state, and the Step on its word, which runs that handler
on the state whose PC is already at a + 2. -/

namespace Sys2Proof.Machine

variable {s : State}

/-- The write port puts one fixed display, so writing it again changes nothing. -/
@[simp] theorem State.clearDisplay_clearDisplay : s.clearDisplay.clearDisplay = s.clearDisplay := rfl

/-- CLS completes from every state alike: every cell is off, the rest of the state is kept, and a second CLS changes
nothing. -/
theorem exec_cls_spec (s : State) : ∃ t, exec .cls s = .next t ∧
    (∀ (y : Fin 32) (x : Fin 64), t.pixel y x = false) ∧ t = { s with disp := t.disp } ∧ exec .cls t = .next t :=
  ⟨s.clearDisplay, exec_cls, s.pixel_clearDisplay, rfl, by rw [exec_cls, State.clearDisplay_clearDisplay]⟩

theorem decode_cls_word : decode 0x00E0 = some .cls := by decide

/-- Settles O21: the first clause is `exec_cls_spec`; in the second the Step runs CLS after the pre-increment, which
writes PC only, and CLS leaves PC there. -/
theorem clsTurnsEveryCellOff : Obligations.ClsTurnsEveryCellOff := by
  refine ⟨exec_cls_spec, fun s hw => ?_⟩
  obtain ⟨t, hexec, hoff, hframe, -⟩ := exec_cls_spec s.advancePc
  have hstep : step s = .next t := (step_of_decoded hw decode_cls_word).trans hexec
  have hpc : t.pc.toNat = s.pc.toNat + 2 := step_pc_of_leavesPc hw decode_cls_word rfl hstep
  refine ⟨t, hstep, hoff, hpc, ?_⟩
  rw [hframe]
  rfl

end Sys2Proof.Machine
end

section
/-! SE Vx,kk and SNE Vx,kk (43_conditional_skip.md R170, R171, R173): the words 3xkk and 4xkk decode to them, a skip taken
in a Step ends at a + 4 and one not taken at a + 2, and the two skip on complementary conditions. -/

namespace Sys2Proof.Machine

variable {s : State} {w : Word} {x : Reg} {kk : Byte}

/-- The fields of a format XK word read off its number. -/
theorem fields_of_formatXK {op : Nat} (hw : w.toNat = 0x1000 * op + 0x100 * x.val + kk.toNat) :
    (familyField w).toNat = op ∧ xField w = x ∧ kkField w = kk := by
  have hkk := kk.isLt
  refine ⟨?_, Fin.ext ?_, BitVec.eq_of_toNat_eq ?_⟩
  · rw [familyField_toNat]; omega
  · rw [xField_val]; omega
  · rw [kkField_toNat]; omega

theorem decode_of_3xkk (hw : w.toNat = 0x3000 + 0x100 * x.val + kk.toNat) : decode w = some (.seImm x kk) := by
  obtain ⟨hfamily, hx, hkk⟩ := fields_of_formatXK (op := 0x3) hw
  simp only [decode, hfamily, hx, hkk]

theorem decode_of_4xkk (hw : w.toNat = 0x4000 + 0x100 * x.val + kk.toNat) : decode w = some (.sneImm x kk) := by
  obtain ⟨hfamily, hx, hkk⟩ := fields_of_formatXK (op := 0x4) hw
  simp only [decode, hfamily, hx, hkk]

/-- Neither the pre-increment nor the skip after it wraps, so a Step that skips ends at a + 4, and at a + 2 otherwise. -/
theorem skipIf_advancePc_pc (hw : s.AboutToRun w) (c : Bool) :
    (s.advancePc.skipIf c).pc.toNat = s.pc.toNat + if c then 4 else 2 := by
  obtain ⟨hadd, hle⟩ := pc_add_two_of_aboutToRun hw
  rw [State.skipIf_pc, State.advancePc_pc]
  cases c with
  | false => exact hadd
  | true =>
    change (s.pc + 2 + 2).toNat = s.pc.toNat + 4
    rw [BitVec.toNat_add, hadd]
    change (s.pc.toNat + 2 + 2) % 65536 = _
    omega

/-- The Step on 3xkk skips exactly if V[x] = kk (R170). -/
theorem step_of_3xkk (hnum : w.toNat = 0x3000 + 0x100 * x.val + kk.toNat) (hw : s.AboutToRun w) :
    step s = .next (s.advancePc.skipIf (bytesEqual (s.readV x) kk)) :=
  (step_of_decoded hw (decode_of_3xkk hnum)).trans (exec_seImm x kk)

/-- The Step on 4xkk skips exactly if V[x] differs from kk (R171). -/
theorem step_of_4xkk (hnum : w.toNat = 0x4000 + 0x100 * x.val + kk.toNat) (hw : s.AboutToRun w) :
    step s = .next (s.advancePc.skipIf (!bytesEqual (s.readV x) kk)) :=
  (step_of_decoded hw (decode_of_4xkk hnum)).trans (exec_sneImm x kk)

/-- Settles O31: the two states have the same V and PC, and one Step skips on V[x] = kk, the other on its negation, so
each value of the comparison sends one of them to a + 4 and the other to a + 2. -/
theorem seAndSneAreComplements : Obligations.SeAndSneAreComplements := by
  intro x kk s m w w' hse hsne hw hw'
  have hsame : State.readV { s with mem := m } x = s.readV x := rfl
  refine ⟨_, _, step_of_3xkk hse hw, step_of_4xkk hsne hw', ?_⟩
  rw [skipIf_advancePc_pc hw, skipIf_advancePc_pc hw', hsame]
  cases bytesEqual (s.readV x) kk with
  | true => exact .inl ⟨rfl, rfl⟩
  | false => exact .inr ⟨rfl, rfl⟩

end Sys2Proof.Machine
end

section
/-! LD Vx,kk and ADD Vx,kk as Steps (44_register_load_add.md R190, R191): the words 6xkk and 7xkk decode to them, and the
Step runs the handler on the state whose PC is already at a + 2, where a handler that writes V alone leaves it. -/

namespace Sys2Proof.Machine

variable {s t : State} {w : Word} {x : Reg} {kk : Byte}

theorem decode_of_6xkk (hw : w.toNat = 0x6000 + 0x100 * x.val + kk.toNat) : decode w = some (.ldImm x kk) := by
  obtain ⟨hfamily, hx, hkk⟩ := fields_of_formatXK (op := 0x6) hw
  simp only [decode, hfamily, hx, hkk]

theorem decode_of_7xkk (hw : w.toNat = 0x7000 + 0x100 * x.val + kk.toNat) : decode w = some (.addImm x kk) := by
  obtain ⟨hfamily, hx, hkk⟩ := fields_of_formatXK (op := 0x7) hw
  simp only [decode, hfamily, hx, hkk]

/-- Where the handler, run after the pre-increment, changes V alone, the whole Step changes V and PC alone and ends
at a + 2. -/
theorem step_of_exec_writes_v_only {i : Instr} (hw : s.AboutToRun w) (hd : decode w = some i)
    (hexec : exec i s.advancePc = .next t) (hframe : t = { s.advancePc with v := t.v }) :
    step s = .next t ∧ t.pc.toNat = s.pc.toNat + 2 ∧ t = { s with v := t.v, pc := t.pc } := by
  have hpc : t.pc = s.pc + 2 := (congrArg State.pc hframe).trans s.advancePc_pc
  refine ⟨(step_of_decoded hw hd).trans hexec, ?_, ?_⟩
  · rw [hpc]
    exact (pc_add_two_of_aboutToRun hw).1
  · rw [hpc]
    exact hframe

/-- Settles O32: the handler clause is `exec_ldImm_spec`; the Step runs it on `advancePc`, which has the same V. -/
theorem ldImmediateLoadsTheRegister : Obligations.LdImmediateLoadsTheRegister := by
  refine fun x kk => ⟨exec_ldImm_spec x kk, fun s w hnum hw => ?_⟩
  obtain ⟨t, hexec, hval, hkeep, hframe⟩ := exec_ldImm_spec x kk s.advancePc
  rw [s.advancePc_v] at hkeep
  obtain ⟨hstep, hpc, hframe'⟩ := step_of_exec_writes_v_only hw (decode_of_6xkk hnum) hexec hframe
  exact ⟨t, hstep, hval, hkeep, hpc, hframe'⟩

/-- Settles O33: the handler clause is `exec_addImm_spec`; the Step runs it on `advancePc`, which has the same V, so the
sum is of the V[x] the Step began with. -/
theorem addImmediateWrapsAndSetsNoFlag : Obligations.AddImmediateWrapsAndSetsNoFlag := by
  refine fun x kk => ⟨exec_addImm_spec x kk, fun s w hnum hw => ?_⟩
  obtain ⟨t, hexec, hval, hkeep, hframe⟩ := exec_addImm_spec x kk s.advancePc
  rw [s.advancePc_v] at hval hkeep
  obtain ⟨hstep, hpc, hframe'⟩ := step_of_exec_writes_v_only hw (decode_of_7xkk hnum) hexec hframe
  exact ⟨t, hstep, hval, hkeep, hpc, hframe'⟩

end Sys2Proof.Machine
end

section
/-! Load and ReadDisplay as the host calls them (47_host_operations.md R232, R238): in a fresh session a Load that
succeeds answers with its memory and ends the phase in which Load is admitted; ReadDisplay answers from any session. -/

namespace Sys2Proof.Machine

variable {t : State} {u : Session}

/-- A fresh session answers a Load that succeeds, and has then used up its one Load (R234). -/
theorem hostOp_load_of_fresh {g : GlyphTable} {bytes : List Byte} (hfresh : u.phase = .fresh)
    (hload : loadWith g bytes u.machine = some t) :
    hostOp g (.load bytes) u = .next (⟨t, .loaded⟩, .done) := by
  simp only [hostOp, hostLoad, hfresh, hload]

/-- Settles O54: `loadWith_reads` gives the cells of the new memory, which is all that `withMem` replaces, and a fresh
session answers the Load with that state. -/
theorem loadPlacesImageAndGlyphTable : Obligations.LoadPlacesImageAndGlyphTable := by
  intro g bytes s hwf hlen
  obtain ⟨m, hload, -, himage, htable, hframe⟩ := loadWith_reads g hwf hlen
  refine ⟨s.withMem m, hload, himage, htable, fun a hglyph himg => ?_, rfl, fun u hmachine hfresh => ?_⟩
  · exact hframe a (by omega) (by omega)
  · subst hmachine
    exact hostOp_load_of_fresh hfresh hload

/-- ReadDisplay is answered from every session with the display as it stands, and leaves the session as it is. -/
theorem hostOp_readDisplay (g : GlyphTable) (u : Session) :
    hostOp g .readDisplay u = .next (u, .display u.machine.disp) := rfl

/-- Settles O60: the grid of the reply is the display itself, and `pixel` reads the same cells of it. -/
theorem readDisplayIsASnapshot : Obligations.ReadDisplayIsASnapshot :=
  fun g u => ⟨u.machine.disp, hostOp_readDisplay g u, fun _ _ => rfl⟩

end Sys2Proof.Machine
end

section
/-! Decode and encode (30_encoding.md): the word of each format decodes to its instruction, a word is put together again
from its fields, and so `decode w = some i` and `w = encode i` are the same statement. -/

namespace Sys2Proof

open Machine

/-! ## From the number of a word to its instruction (R92, R94) -/

theorem decode_ret_word : decode 0x00EE = some .ret := by decide

/-- The fields of a format A word read off its number. -/
theorem fields_of_formatA {w : Word} {op : Nat} {nnn : Addr} (hw : w.toNat = 0x1000 * op + nnn.toNat) :
    (familyField w).toNat = op ∧ nnnField w = nnn := by
  have hnnn := nnn.isLt
  refine ⟨?_, BitVec.eq_of_toNat_eq ?_⟩
  · rw [familyField_toNat]; omega
  · rw [nnnField_toNat]; omega

theorem decode_of_1nnn {w : Word} {nnn : Addr} (hw : w.toNat = 0x1000 + nnn.toNat) : decode w = some (.jp nnn) := by
  obtain ⟨hfamily, hnnn⟩ := fields_of_formatA (op := 0x1) hw
  simp only [decode, hfamily, hnnn]

theorem decode_of_2nnn {w : Word} {nnn : Addr} (hw : w.toNat = 0x2000 + nnn.toNat) : decode w = some (.call nnn) := by
  obtain ⟨hfamily, hnnn⟩ := fields_of_formatA (op := 0x2) hw
  simp only [decode, hfamily, hnnn]

theorem decode_of_5xy0 {w : Word} {x y : Reg} (hw : w.toNat = 0x5000 + 0x100 * x.val + 0x10 * y.val) :
    decode w = some (.seReg x y) := by
  have hfamily : (familyField w).toNat = 0x5 := by rw [familyField_toNat]; omega
  have hx : xField w = x := Fin.ext (by rw [xField_val]; omega)
  have hy : yField w = y := Fin.ext (by rw [yField_val]; omega)
  have hlow : lowNibble w = 0 := BitVec.eq_of_toNat_eq (by rw [lowNibble_toNat]; change _ = 0; omega)
  simp only [decode, hfamily, hx, hy, hlow, if_true]

/-- Every instruction is what its own word decodes to. -/
theorem decode_encode (i : Instr) : decode (encode i) = some i := by
  cases i with
  | cls => exact decode_cls_word
  | ret => exact decode_ret_word
  | jp nnn => exact decode_of_1nnn (encode_jp_toNat nnn)
  | call nnn => exact decode_of_2nnn (encode_call_toNat nnn)
  | seImm x kk => exact decode_of_3xkk (encode_seImm_toNat x kk)
  | sneImm x kk => exact decode_of_4xkk (encode_sneImm_toNat x kk)
  | seReg x y => exact decode_of_5xy0 (encode_seReg_toNat x y)
  | ldImm x kk => exact decode_of_6xkk (encode_ldImm_toNat x kk)
  | addImm x kk => exact decode_of_7xkk (encode_addImm_toNat x kk)

/-! ## From an instruction back to its word -/

/-- A format A word is its family nibble and nnn. -/
theorem formatA_of_fields {w : Word} {op : BitVec 4} (hfamily : (familyField w).toNat = op.toNat) :
    op ++ nnnField w = w := by
  apply BitVec.eq_of_toNat_eq
  rw [familyField_toNat] at hfamily
  rw [append_toNat, nnnField_toNat, ← hfamily]
  omega

/-- A format XK word is its family nibble, x and kk. -/
theorem formatXK_of_fields {w : Word} {op : BitVec 4} (hfamily : (familyField w).toNat = op.toNat) :
    op ++ regBits (xField w) ++ kkField w = w := by
  apply BitVec.eq_of_toNat_eq
  rw [familyField_toNat] at hfamily
  rw [formatXK_toNat, xField_val, kkField_toNat, ← hfamily]
  omega

/-- A word of family 5 whose low nibble is 0 is 0x5000 with x and y (format XY). -/
theorem formatXY_of_fields {w : Word} (hfamily : (familyField w).toNat = 0x5) (hlow : lowNibble w = 0) :
    encode (.seReg (xField w) (yField w)) = w := by
  have hnibble : (lowNibble w).toNat = 0 := congrArg BitVec.toNat hlow
  apply BitVec.eq_of_toNat_eq
  rw [familyField_toNat] at hfamily
  rw [lowNibble_toNat] at hnibble
  rw [encode_seReg_toNat, xField_val, yField_val]
  omega

/-- No bit of a word is dropped: along each branch of the dispatch tree the fields taken make up the whole word. -/
theorem encode_of_decode {w : Word} {i : Instr} (h : decode w = some i) : encode i = w := by
  unfold decode at h
  split at h
  case h_1 =>
    split at h
    case isTrue hcls => obtain rfl := Option.some.inj h; exact hcls.symm
    case isFalse =>
      split at h
      case isTrue hret => obtain rfl := Option.some.inj h; exact hret.symm
      case isFalse => exact nomatch h
  case h_2 hfamily => obtain rfl := Option.some.inj h; exact formatA_of_fields (op := 0x1) hfamily
  case h_3 hfamily => obtain rfl := Option.some.inj h; exact formatA_of_fields (op := 0x2) hfamily
  case h_4 hfamily => obtain rfl := Option.some.inj h; exact formatXK_of_fields (op := 0x3) hfamily
  case h_5 hfamily => obtain rfl := Option.some.inj h; exact formatXK_of_fields (op := 0x4) hfamily
  case h_6 hfamily =>
    split at h
    case isTrue hlow => obtain rfl := Option.some.inj h; exact formatXY_of_fields hfamily hlow
    case isFalse => exact nomatch h
  case h_7 hfamily => obtain rfl := Option.some.inj h; exact formatXK_of_fields (op := 0x6) hfamily
  case h_8 hfamily => obtain rfl := Option.some.inj h; exact formatXK_of_fields (op := 0x7) hfamily
  case h_9 => exact nomatch h

/-- A word and the one instruction it spells determine each other. -/
theorem decode_eq_some_iff {w : Word} {i : Instr} : decode w = some i ↔ w = encode i :=
  ⟨fun h => (encode_of_decode h).symm, fun h => h ▸ decode_encode i⟩

/-- Bytes begin with an instruction exactly when they begin with its own two. -/
theorem decodeBytes_eq_instr_iff {bytes rest : List Byte} {i : Instr} :
    decodeBytes bytes = .instr i rest ↔ bytes = encodeBytes i ++ rest := by
  match bytes with
  | [] => simp [decodeBytes, encodeBytes]
  | [_] => simp [decodeBytes, encodeBytes]
  | hi :: lo :: tail =>
    have htwo : hi :: lo :: tail = encodeBytes i ++ rest ↔ joinBytes hi lo = encode i ∧ tail = rest := by
      simp only [encodeBytes, List.cons_append, List.nil_append, List.cons.injEq, joinBytes_eq_iff, and_assoc]
    rw [htwo, ← decode_eq_some_iff]
    cases hd : decode (joinBytes hi lo) <;> simp [decodeBytes, hd]

/-- Settles O6: `decode_encode` for the word, and for the bytes the two an instruction's word is made of. -/
theorem decodeOfEncodeIsTheInstruction : Obligations.DecodeOfEncodeIsTheInstruction :=
  fun i => ⟨decode_encode i, fun _ => decodeBytes_eq_instr_iff.2 rfl⟩

/-- Settles O7: `encode_of_decode`. -/
theorem onlyItsOwnWordDecodesToAnInstruction : Obligations.OnlyItsOwnWordDecodesToAnInstruction :=
  fun _ _ => encode_of_decode

/-- Settles O11: the bytes of an instruction in a list and in a fetch, and as a number. -/
theorem everyInstructionIsTwoBytes : Obligations.EveryInstructionIsTwoBytes := by
  refine ⟨fun _ _ _ => decodeBytes_eq_instr_iff, fun i => ⟨_, _, rfl, toNat_eq_bytes (encode i)⟩, fun s i => ?_⟩
  rw [fetchWord_eq_some, joinBytes_eq_iff]
  simp [encodeBytes]

/-- Settles O12: each word is computed through the dispatch tree. -/
theorem sampleWordsDecodeToTheirInstruction : Obligations.SampleWordsDecodeToTheirInstruction := by
  unfold Obligations.SampleWordsDecodeToTheirInstruction
  decide

/-! ## The dispatch tree in numbers (R94, R96, R97) -/

theorem xField_eq_ofNat (w : Word) : xField w = Fin.ofNat 16 (w.toNat / 256 % 16) :=
  Fin.ext ((xField_val w).trans (Nat.mod_mod _ 16).symm)

theorem yField_eq_ofNat (w : Word) : yField w = Fin.ofNat 16 (w.toNat / 16 % 16) :=
  Fin.ext ((yField_val w).trans (Nat.mod_mod _ 16).symm)

theorem kkField_eq_ofNat (w : Word) : kkField w = BitVec.ofNat 8 (w.toNat % 256) :=
  BitVec.eq_of_toNat_eq ((kkField_toNat w).trans (Nat.mod_mod _ 256).symm)

theorem nnnField_eq_ofNat (w : Word) : nnnField w = BitVec.ofNat 12 (w.toNat % 4096) :=
  BitVec.eq_of_toNat_eq ((nnnField_toNat w).trans (Nat.mod_mod _ 4096).symm)

theorem lowNibble_eq_zero_iff (w : Word) : lowNibble w = 0 ↔ w.toNat % 16 = 0 := by
  rw [← lowNibble_toNat]
  exact BitVec.toNat_inj.symm

/-- Families 8 to F have no branch in the tree. -/
theorem decode_of_family_ge_8 {w : Word} (h : 8 ≤ w.toNat / 4096) : decode w = none := by
  rw [← familyField_toNat] at h
  unfold decode
  split
  case h_9 => rfl
  all_goals omega

/-- Settles O8: the family field and the operand fields of `decode` are these quotients and remainders. -/
theorem decodeFollowsTheDispatchTree : Obligations.DecodeFollowsTheDispatchTree := by
  intro w n x y kk nnn
  have hx : xField w = x := xField_eq_ofNat w
  have hy : yField w = y := yField_eq_ofNat w
  have hkk : kkField w = kk := kkField_eq_ofNat w
  have hnnn : nnnField w = nnn := nnnField_eq_ofNat w
  have hfamily : (familyField w).toNat = n / 4096 := familyField_toNat w
  have hcls : w = 0x00E0 ↔ n = 0xE0 := BitVec.toNat_inj.symm
  have hret : w = 0x00EE ↔ n = 0xEE := BitVec.toNat_inj.symm
  have hlow : lowNibble w = 0 ↔ n % 16 = 0 := lowNibble_eq_zero_iff w
  refine ⟨fun h => ?_, fun h => ?_, fun h => ?_, fun h => ?_, fun h => ?_, fun h => ?_, fun h => ?_, fun h => ?_,
    decode_of_family_ge_8⟩ <;> simp only [decode, hfamily, h, hx, hy, hkk, hnnn, hcls, hret, hlow]

/-- Settles O10: the branches of the tree that end in Unknown, family by family. -/
theorem unknownOpcodesAreExactlyTheseWords : Obligations.UnknownOpcodesAreExactlyTheseWords := by
  intro w
  obtain ⟨h0, h1, h2, h3, h4, h5, h6, h7, h8⟩ := decodeFollowsTheDispatchTree w
  have known (i : Instr) (hd : decode w = some i) (hne : w.toNat / 4096 ≠ 0 ∧ w.toNat / 4096 ≠ 5 ∧ w.toNat / 4096 < 8) :
      decode w = none ↔ (w.toNat / 4096 = 0 ∧ w.toNat ≠ 0x00E0 ∧ w.toNat ≠ 0x00EE) ∨
        (w.toNat / 4096 = 5 ∧ w.toNat % 16 ≠ 0) ∨ 8 ≤ w.toNat / 4096 := by
    simp only [hd, reduceCtorEq, false_iff]
    omega
  by_cases hge : 8 ≤ w.toNat / 4096
  · simp only [h8 hge, hge, or_true]
  · have hlt : w.toNat / 4096 < 8 := by omega
    interval_cases hfamily : w.toNat / 4096
    · rw [h0 rfl]
      split_ifs <;> simp [*]
    · exact known _ (h1 rfl) (by decide)
    · exact known _ (h2 rfl) (by decide)
    · exact known _ (h3 rfl) (by decide)
    · exact known _ (h4 rfl) (by decide)
    · rw [h5 rfl]
      split_ifs <;> simp [*]
    · exact known _ (h6 rfl) (by decide)
    · exact known _ (h7 rfl) (by decide)

/-! ## The opcode map (R95) -/

/-- Every instruction's word matches its row, and the row stands in the map. -/
theorem encode_matches_row (i : Instr) : encode i &&& (rowOf i).mask = (rowOf i).pattern ∧ rowOf i ∈ opcodeTable := by
  cases i with
  | cls => exact Laws.TableRow.cls
  | ret => exact Laws.TableRow.ret
  | jp nnn => exact Laws.TableRow.jp nnn
  | call nnn => exact Laws.TableRow.call nnn
  | seImm x kk => exact Laws.TableRow.seImm x kk
  | sneImm x kk => exact Laws.TableRow.sneImm x kk
  | seReg x y => exact Laws.TableRow.seReg x y
  | ldImm x kk => exact Laws.TableRow.ldImm x kk
  | addImm x kk => exact Laws.TableRow.addImm x kk

/-- A word that matches a family's pattern under mask F000 is of that family. -/
theorem family_of_match {w : Word} {k : Nat} (hk : k < 16) (h : w &&& 0xF000#16 = BitVec.ofNat 16 (4096 * k)) :
    w.toNat / 4096 = k := by
  have hnum := congrArg BitVec.toNat h
  rw [and_F000_toNat, BitVec.toNat_ofNat] at hnum
  omega

/-- A word that matches SE_reg's pattern under mask F00F is of family 5 with low nibble 0. -/
theorem family_5_of_match {w : Word} (h : w &&& 0xF00F#16 = 0x5000#16) : w.toNat / 4096 = 5 ∧ w.toNat % 16 = 0 := by
  have hnum : w.toNat / 4096 * 4096 + w.toNat % 16 = 0x5000 := (and_F00F_toNat w).symm.trans (congrArg BitVec.toNat h)
  omega

/-- Under mask FFFF only the pattern itself matches. -/
theorem eq_of_match_FFFF {w pattern : Word} (h : w &&& 0xFFFF#16 = pattern) : w = pattern :=
  (BitVec.and_allOnes (x := w)).symm.trans h

/-- A word that matches a row of the map is an instruction of that row. -/
theorem decode_of_match {w : Word} {r : OpcodeRow} (hr : r ∈ opcodeTable) (h : w &&& r.mask = r.pattern) :
    ∃ i, decode w = some i ∧ rowOf i = r := by
  obtain ⟨-, h1, h2, h3, h4, h5, h6, h7, -⟩ := decodeFollowsTheDispatchTree w
  simp only [opcodeTable, List.mem_cons, List.not_mem_nil, or_false] at hr
  obtain rfl | rfl | rfl | rfl | rfl | rfl | rfl | rfl | rfl := hr
  · exact ⟨.cls, (congrArg decode (eq_of_match_FFFF h)).trans decode_cls_word, rfl⟩
  · exact ⟨.ret, (congrArg decode (eq_of_match_FFFF h)).trans decode_ret_word, rfl⟩
  · exact ⟨_, h1 (family_of_match (by decide) h), rfl⟩
  · exact ⟨_, h2 (family_of_match (by decide) h), rfl⟩
  · exact ⟨_, h3 (family_of_match (by decide) h), rfl⟩
  · exact ⟨_, h4 (family_of_match (by decide) h), rfl⟩
  · obtain ⟨hfamily, hlow⟩ := family_5_of_match h
    exact ⟨_, (h5 hfamily).trans (if_pos hlow), rfl⟩
  · exact ⟨_, h6 (family_of_match (by decide) h), rfl⟩
  · exact ⟨_, h7 (family_of_match (by decide) h), rfl⟩

/-- Settles O9: a word decodes to at most one instruction, which has one row, so two rows a word matches are the same
row, and no row stands twice in the map. -/
theorem opcodeMapSelectsTheInstruction : Obligations.OpcodeMapSelectsTheInstruction := by
  refine ⟨fun w r hr => ⟨?_, decode_of_match hr⟩, ?_⟩
  · rintro ⟨i, hd, rfl⟩
    rw [decode_eq_some_iff.1 hd]
    exact (encode_matches_row i).1
  · have hnodup : opcodeTable.Pairwise (· ≠ ·) := by decide
    refine hnodup.imp_of_mem fun {r q} hr hq hne w hmatch hmatch' => hne ?_
    obtain ⟨i, hd, rfl⟩ := decode_of_match hr hmatch
    obtain ⟨j, hd', rfl⟩ := decode_of_match hq hmatch'
    rw [Option.some.inj (hd.symm.trans hd')]

/-! ## Assembly (R100, R101) -/

/-- A line with an operand out of range names no instruction. -/
theorem AsmLine.instr?_of_ill_formed {line : AsmLine} (h : line.wellFormed = false) : line.instr? = none := by
  simp only [AsmLine.instr?, h, Bool.false_eq_true, if_false]

/-- A line with an operand out of range has no word. -/
theorem AsmLine.word?_of_ill_formed {line : AsmLine} (h : line.wellFormed = false) : line.word? = none := by
  have hinstr : line.instr?.map encode = none := by rw [AsmLine.instr?_of_ill_formed h]; rfl
  cases line with
  | dw value => simp only [AsmLine.word?, h, Bool.false_eq_true, if_false]
  | _ => exact hinstr

/-- The word of a line that names an instruction. -/
theorem AsmLine.word?_of_instr {line : AsmLine} {i : Instr} (h : line.instr? = some i) :
    line.word? = some (encode i) := by
  have hinstr : line.instr?.map encode = some (encode i) := by rw [h]; rfl
  cases line with
  | dw value => simp [AsmLine.instr?] at h
  | _ => exact hinstr

theorem regOf_val {x : Nat} (h : x ≤ 15) : (regOf x).val = x := Nat.mod_eq_of_lt (by omega)

theorem immediate_toNat {kk : Nat} (h : kk ≤ 255) : (BitVec.ofNat 8 kk).toNat = kk := Nat.mod_eq_of_lt (by omega)

theorem address_toNat {a : Nat} (h : a ≤ 0xFFF) : (BitVec.ofNat 12 a).toNat = a := Nat.mod_eq_of_lt (by omega)

/-- Settles O13: a line with operands in range names an instruction whose operands are those numbers, and the encoder's
words are known as numbers. -/
theorem assemblyLinesHaveTheseWords : Obligations.AssemblyLinesHaveTheseWords := by
  refine ⟨fun a ha => ?_, fun x kk hx hkk => ?_, fun x y hx hy => ?_, fun n hn => ?_, rfl, rfl,
    fun _ => AsmLine.word?_of_ill_formed⟩
  · have haddr : isAddress a = true := decide_eq_true ha
    refine ⟨⟨_, AsmLine.word?_of_instr (if_pos haddr), ?_⟩, ⟨_, AsmLine.word?_of_instr (if_pos haddr), ?_⟩⟩
    · rw [encode_jp_toNat, address_toNat ha]
    · rw [encode_call_toNat, address_toNat ha]
  · have hok : (isReg x && isImmediate kk) = true := Bool.and_eq_true_iff.2 ⟨decide_eq_true hx, decide_eq_true hkk⟩
    refine ⟨⟨_, AsmLine.word?_of_instr (if_pos hok), ?_⟩, ⟨_, AsmLine.word?_of_instr (if_pos hok), ?_⟩,
      ⟨_, AsmLine.word?_of_instr (if_pos hok), ?_⟩, ⟨_, AsmLine.word?_of_instr (if_pos hok), ?_⟩⟩
    · rw [encode_seImm_toNat, regOf_val hx, immediate_toNat hkk]
    · rw [encode_sneImm_toNat, regOf_val hx, immediate_toNat hkk]
    · rw [encode_ldImm_toNat, regOf_val hx, immediate_toNat hkk]
    · rw [encode_addImm_toNat, regOf_val hx, immediate_toNat hkk]
  · have hok : (isReg x && isReg y) = true := Bool.and_eq_true_iff.2 ⟨decide_eq_true hx, decide_eq_true hy⟩
    refine ⟨_, AsmLine.word?_of_instr (if_pos hok), ?_⟩
    rw [encode_seReg_toNat, regOf_val hx, regOf_val hy]
  · exact ⟨_, if_pos (decide_eq_true hn), Nat.mod_eq_of_lt (by omega)⟩

end Sys2Proof
end

section
/-! What one Step leaves alone and what it always answers (10_state.md R27, R29, R31; 40_step_cycle.md R130): STACK is
written by CALL only, DISP by CLS only, DT by no Step, and with SP at most 16 every handler answers a next state. -/

namespace Sys2Proof.Machine

variable {s t : State} {w : Word} {i : Instr}

/-! ## The parts of the state a handler keeps -/

/-- CALL with room on the stack is the only handler that writes STACK (R27). -/
theorem exec_keeps_stack_or_pushes (h : exec i s = .next t) :
    t.stack = s.stack ∨ ∃ nnn, ∃ hlt : s.sp.toNat < 16, i = .call nnn ∧
      t = { s with stack := s.stack.set s.sp.toNat s.pc hlt, sp := s.sp + 1, pc := zextAddr nnn } := by
  rcases exec_cases h with ⟨-, rfl⟩ | ⟨_, -, rfl⟩ | ⟨_, _, -, rfl⟩ | ⟨_, _, -, rfl⟩ | ⟨_, _, -, rfl⟩ |
    ⟨_, _, -, rfl⟩ | ⟨_, _, -, rfl⟩ | hcall | ⟨_, -, -, rfl⟩ | ⟨_, -, -, rfl⟩ | ⟨-, -, rfl⟩
  · exact .inl s.clearDisplay_stack
  · exact .inl (s.setPc_stack _)
  · exact .inl (s.skipIf_stack _)
  · exact .inl (s.skipIf_stack _)
  · exact .inl (s.skipIf_stack _)
  · exact .inl (s.writeV_stack _ _)
  · exact .inl (s.writeV_stack _ _)
  · exact .inr hcall
  · exact .inl (s.raise_stack _ _ _)
  · exact .inl rfl
  · exact .inl (s.raise_stack _ _ _)

/-- CLS is the only handler that writes DISP (R31). -/
theorem exec_keeps_disp_or_clears (h : exec i s = .next t) :
    t.disp = s.disp ∨ (i = .cls ∧ t = s.clearDisplay) := by
  rcases exec_cases h with hcls | ⟨_, -, rfl⟩ | ⟨_, _, -, rfl⟩ | ⟨_, _, -, rfl⟩ | ⟨_, _, -, rfl⟩ |
    ⟨_, _, -, rfl⟩ | ⟨_, _, -, rfl⟩ | ⟨_, _, -, rfl⟩ | ⟨_, -, -, rfl⟩ | ⟨_, -, -, rfl⟩ | ⟨-, -, rfl⟩
  · exact .inr hcls
  · exact .inl (s.setPc_disp _)
  · exact .inl (s.skipIf_disp _)
  · exact .inl (s.skipIf_disp _)
  · exact .inl (s.skipIf_disp _)
  · exact .inl (s.writeV_disp _ _)
  · exact .inl (s.writeV_disp _ _)
  · exact .inl rfl
  · exact .inl (s.raise_disp _ _ _)
  · exact .inl rfl
  · exact .inl (s.raise_disp _ _ _)

/-! ## The parts of the state a Step keeps -/

/-- A Step that runs no handler keeps STACK and DISP. -/
theorem step_keeps_or_exec (h : step s = .next t) :
    (t.stack = s.stack ∧ t.disp = s.disp) ∨ ∃ i, s.AboutToRun (encode i) ∧ exec i s.advancePc = .next t := by
  rcases step_cases h with ⟨-, rfl⟩ | ⟨-, -, rfl⟩ | ⟨w, -, -, rfl⟩ | ⟨w, i, hw, hd, hexec⟩
  · exact .inl ⟨rfl, rfl⟩
  · exact .inl ⟨rfl, rfl⟩
  · exact .inl ⟨rfl, rfl⟩
  · exact .inr ⟨i, decode_eq_some_iff.1 hd ▸ hw, hexec⟩

/-- Below the top of its range SP counts up by 1. -/
theorem sp_add_one_toNat (h : s.sp.toNat < 16) : (s.sp + 1).toNat = s.sp.toNat + 1 := by
  rw [BitVec.toNat_add]
  change (s.sp.toNat + 1) % 256 = _
  omega

/-- Settles O26: a Step that changes STACK is a CALL with room, whose one write is the return address to entry SP. -/
theorem stackIsWrittenOnlyByCall : Obligations.StackIsWrittenOnlyByCall := by
  intro s t j hstep hne
  obtain ⟨hstack, -⟩ | ⟨i, hw, hexec⟩ := step_keeps_or_exec hstep
  · exact absurd (by rw [hstack]) hne
  · obtain hstack | ⟨nnn, hlt, rfl, rfl⟩ := exec_keeps_stack_or_pushes hexec
    · exact absurd (by rw [hstack, s.advancePc_stack]) hne
    · have hj : j.val = s.sp.toNat := by
        by_contra hother
        exact hne (Vector.getElem_set_ne hlt j.isLt (Ne.symm hother))
      refine ⟨⟨nnn, hw⟩, hj, sp_add_one_toNat hlt, ?_⟩
      have hentry : (s.stack.set s.sp.toNat (s.pc + 2) hlt)[j.val] = s.pc + 2 := by
        simp only [hj]
        exact Vector.getElem_set_self hlt
      exact (congrArg BitVec.toNat hentry).trans (pc_add_two_of_aboutToRun hw).1

/-- A Step keeps DISP, or it ran CLS. -/
theorem step_keeps_disp_or_clears (h : step s = .next t) :
    t.disp = s.disp ∨ (s.AboutToRun 0x00E0 ∧ t.disp = Display.off) := by
  obtain ⟨-, hdisp⟩ | ⟨i, hw, hexec⟩ := step_keeps_or_exec h
  · exact .inl hdisp
  · obtain hdisp | ⟨rfl, rfl⟩ := exec_keeps_disp_or_clears hexec
    · exact .inl hdisp
    · exact .inr ⟨hw, rfl⟩

/-- Settles O50: a Step that does not keep DISP ran CLS, whose word is 0x00E0. -/
theorem displayIsWrittenOnlyByCls : Obligations.DisplayIsWrittenOnlyByCls := by
  intro s t hstep hne
  obtain ⟨hw, hoff⟩ := (step_keeps_disp_or_clears hstep).resolve_left hne
  refine ⟨hw, fun y x => ?_⟩
  change t.disp[y.val][x.val] = false
  rw [hoff]
  exact Display.off_cell y x

/-- A Step keeps DT: replacing DT by what it already is changes nothing before it runs, and so nothing after. -/
theorem step_keeps_dt (h : step s = .next t) : t.dt = s.dt := by
  have hsame : step s = onNext (State.mapIdle id (fun _ => s.dt) id) (step s) := step_mapIdle id (fun _ => s.dt) id s
  rw [h] at hsame
  have ht : t = t.mapIdle id (fun _ => s.dt) id := Host.Outcome.next.inj hsame
  exact (congrArg State.dt ht).trans rfl

/-- Settles O53: a change of DT alone is a change of the idle fields that keeps I and the key flags, and TickTimer is
not among the operations. -/
theorem timerIsTouchedOnlyByTickTimer : Obligations.TimerIsTouchedOnlyByTickTimer :=
  fun g _ u dt hreset htick =>
    hostOp_mapIdle id (fun _ => dt) id g u hreset (fun e => absurd e htick) (fun _ _ _ => rfl)

/-! ## A Step is never stuck -/

/-- Where SP is 0 to 16 every handler answers a next state. -/
theorem exec_answers (i : Instr) (hsp : s.sp.toNat ≤ 16) : ∃ t, exec i s = .next t := by
  cases i with
  | cls => exact ⟨_, exec_cls⟩
  | jp nnn => exact ⟨_, exec_jp nnn⟩
  | seImm x kk => exact ⟨_, exec_seImm x kk⟩
  | sneImm x kk => exact ⟨_, exec_sneImm x kk⟩
  | seReg x y => exact ⟨_, exec_seReg x y⟩
  | ldImm x kk => exact ⟨_, exec_ldImm x kk⟩
  | addImm x kk => exact ⟨_, exec_addImm x kk⟩
  | call nnn =>
    rcases Nat.lt_or_eq_of_le hsp with hroom | hfull
    · exact ⟨_, exec_call_room nnn hroom⟩
    · exact ⟨_, exec_call_full nnn (BitVec.eq_of_toNat_eq hfull)⟩
  | ret =>
    rcases Nat.eq_zero_or_pos s.sp.toNat with hempty | hlive
    · exact ⟨_, exec_ret_empty (BitVec.eq_of_toNat_eq hempty)⟩
    · exact ⟨_, exec_ret_live hlive (by omega)⟩

/-- Where SP is 0 to 16 every Step answers a next state. -/
theorem step_answers (hsp : s.sp.toNat ≤ 16) : ∃ t, step s = .next t := by
  cases hhalt : s.halt with
  | true => exact ⟨_, step_of_halted hhalt⟩
  | false =>
    cases hf : s.fetchWord with
    | none => exact ⟨_, step_of_fetch_none hhalt hf⟩
    | some w =>
      have hw : s.AboutToRun w := aboutToRun_iff.2 ⟨hhalt, hf⟩
      cases hd : decode w with
      | none => exact ⟨_, step_of_unknown hw hd⟩
      | some i =>
        obtain ⟨t, hexec⟩ := exec_answers (s := s.advancePc) i hsp
        exact ⟨t, (step_of_decoded hw hd).trans hexec⟩

/-- A Step that halts a running machine records one of the four causes. -/
theorem step_halts_cause (hrun : s.halt = false) (h : step s = .next t) (hhalt : t.halt = true) :
    t.fault.cause = .unknownOpcode ∨ t.fault.cause = .stackOverflow ∨ t.fault.cause = .stackUnderflow ∨
      t.fault.cause = .fetchOutOfRange := by
  rcases step_halts_cases hrun h hhalt with ⟨-, rfl⟩ | ⟨_, -, -, rfl⟩ | ⟨_, _, -, -, -, rfl⟩ | ⟨_, -, -, -, rfl⟩
  · exact .inr (.inr (.inr rfl))
  · exact .inl rfl
  · exact .inr (.inl rfl)
  · exact .inr (.inr (.inl rfl))

/-- A Step after which the machine still runs ran an instruction. -/
theorem step_runs_cases (h : step s = .next t) (hhalt : t.halt = false) :
    s.halt = false ∧ ∃ w i, s.AboutToRun w ∧ decode w = some i ∧ exec i s.advancePc = .next t := by
  rcases step_cases h with ⟨hs, rfl⟩ | ⟨-, -, rfl⟩ | ⟨w, -, -, rfl⟩ | ⟨w, i, hw, hd, hexec⟩
  · exact absurd (hs.symm.trans hhalt) (by decide)
  · exact absurd (s.raiseFetchOutOfRange_halt.symm.trans hhalt) (by decide)
  · exact absurd ((s.advancePc.raiseUnknownOpcode_halt w).symm.trans hhalt) (by decide)
  · exact ⟨hw.1, w, i, hw, hd, hexec⟩

/-- Settles O17: HALT before and after the Step picks the case; the lemma of that case says what the Step did. -/
theorem stepAlwaysAnswersANextState : Obligations.StepAlwaysAnswersANextState := by
  intro s hinv
  obtain ⟨t, hstep⟩ := step_answers hinv.sp
  refine ⟨t, hstep, ?_⟩
  rcases Bool.eq_false_or_eq_true s.halt with hs | hs
  · exact .inl ⟨hs, Host.Outcome.next.inj (hstep.symm.trans (step_of_halted hs))⟩
  · rcases Bool.eq_false_or_eq_true t.halt with ht | ht
    · exact .inr (.inr ⟨hs, ht, step_halts_cause hs hstep ht⟩)
    · exact .inr (.inl ⟨hs, ht, (step_runs_cases hstep ht).2⟩)

/-- A clean run starts on a running machine. -/
theorem State.RunsCleanly.halt_eq_false : ∀ {k : Nat} {s : State}, s.RunsCleanly k → s.halt = false
  | 0, _, h => h
  | _ + 1, _, h => h.1

/-- Settles O45, by induction on the number of Steps: the machine runs after the first Step, because the rest of the run
is clean, and a Step after which the machine runs began on a running machine. -/
theorem runThatEndsUnhaltedHadNoFault : Obligations.RunThatEndsUnhaltedHadNoFault := by
  intro k
  induction k with
  | zero =>
    intro s t hrun hhalt
    obtain rfl := Host.Outcome.next.inj hrun
    exact hhalt
  | succ k ih =>
    intro s t hrun hhalt
    obtain ⟨u, hstep, hrest⟩ := run_succ_cases hrun
    have hclean : u.RunsCleanly k := ih u t hrest hhalt
    exact ⟨(step_runs_cases hstep hclean.halt_eq_false).1, u, hstep, hclean⟩

end Sys2Proof.Machine
end

section
/-! The invariant of the machine (10_state.md R25, R26, R28; 60_exceptions.md R251, R258): it holds after Reset, every
handler keeps it on the state a Step gives it, so every Step does, and so every host operation and every schedule. -/

namespace Sys2Proof.Machine

variable {s t : State} {w : Word} {i : Instr}

/-! ## The parts of the invariant -/

/-- The invariant reads MEM, PC, SP, STACK, HALT and FAULT only. -/
theorem State.Inv.of_kept (h : s.Inv) (hmem : t.mem = s.mem) (hsp : t.sp = s.sp) (hstack : t.stack = s.stack)
    (hhalt : t.halt = s.halt) (hfault : t.fault = s.fault) (hpc : t.pc.toNat ≤ 0x1002) : t.Inv where
  memory := hmem ▸ h.memory
  pc := hpc
  sp := hsp ▸ h.sp
  stack := by simpa only [State.stackOk, hsp, hstack] using h.stack
  fault := by simpa only [State.faultOk, hhalt, hfault] using h.fault

/-- Fault entry keeps the invariant where the record it writes is one a Step can write. -/
theorem State.Inv.raise {cause : Cause} {a : Word} (h : s.Inv) (hok : (s.raise cause a w).faultOk) :
    (s.raise cause a w).Inv :=
  ⟨h.memory, h.pc, h.sp, h.stack, hok⟩

theorem zextAddr_toNat (nnn : Addr) : (zextAddr nnn).toNat = nnn.toNat := by
  have := nnn.isLt
  rw [zextAddr, BitVec.toNat_setWidth]
  omega

/-- A jump or call target is inside MEM. -/
theorem zextAddr_le (nnn : Addr) : (zextAddr nnn).toNat ≤ 0x1002 := by
  have := nnn.isLt
  rw [zextAddr_toNat]
  omega

/-- A skip after a pre-increment ends at most at 0x1002 (R25). -/
theorem State.skipIf_pc_le (hhi : s.pc.toNat ≤ 0x1000) (c : Bool) : (s.skipIf c).pc.toNat ≤ 0x1002 := by
  rw [State.skipIf_pc]
  cases c with
  | false => exact hhi.trans (by decide)
  | true =>
    change (s.pc + 2).toNat ≤ 0x1002
    rw [BitVec.toNat_add]
    change (s.pc.toNat + 2) % 65536 ≤ _
    omega

/-- The instruction a handler runs for stands at most at 0xFFE. -/
theorem State.instrAddr_le (hlo : 2 ≤ s.pc.toNat) (hhi : s.pc.toNat ≤ 0x1000) : s.instrAddr.toNat ≤ 0xFFE := by
  rw [State.instrAddr, BitVec.toNat_sub]
  change (65536 - 2 + s.pc.toNat) % 65536 ≤ _
  omega

/-! ## CALL and RET keep the invariant -/

/-- CALL pushes an address in 0x0002 to 0x1000 above live entries that are kept (R28). -/
theorem State.Inv.push (h : s.Inv) (hlt : s.sp.toNat < 16) (hlo : 2 ≤ s.pc.toNat) (hhi : s.pc.toNat ≤ 0x1000)
    (nnn : Addr) : State.Inv
      { s with stack := s.stack.set s.sp.toNat s.pc hlt, sp := s.sp + 1, pc := zextAddr nnn } := by
  have hsp : (s.sp + 1).toNat = s.sp.toNat + 1 := sp_add_one_toNat hlt
  refine ⟨h.memory, zextAddr_le nnn, ?_, fun j hj => ?_, h.fault⟩
  · change (s.sp + 1).toNat ≤ 16
    omega
  · change j.val < (s.sp + 1).toNat at hj
    change 2 ≤ ((s.stack.set s.sp.toNat s.pc hlt)[j.val]).toNat ∧
      ((s.stack.set s.sp.toNat s.pc hlt)[j.val]).toNat ≤ 0x1000
    rw [Vector.getElem_set]
    split
    · exact ⟨hlo, hhi⟩
    · exact h.stack j (by omega)

/-- RET goes to a live entry, and the entries left are live ones (R28). -/
theorem State.Inv.pop (h : s.Inv) (hlt : s.sp.toNat - 1 < 16) (hpos : 0 < s.sp.toNat) : State.Inv
    { s with sp := s.sp - 1, pc := s.stack[s.sp.toNat - 1] } := by
  have hsp : (s.sp - 1).toNat = s.sp.toNat - 1 := sp_sub_one_toNat hpos
  have hsp16 : s.sp.toNat ≤ 16 := h.sp
  obtain ⟨-, htop⟩ := h.stack ⟨s.sp.toNat - 1, hlt⟩ (Nat.sub_one_lt_of_lt hpos)
  refine ⟨h.memory, ?_, ?_, fun j hj => h.stack j ?_, h.fault⟩
  · exact htop.trans (by decide)
  · change (s.sp - 1).toNat ≤ 16
    omega
  · change j.val < (s.sp - 1).toNat at hj
    omega

/-! ## A Step keeps the invariant -/

/-- Every handler keeps the invariant on a state whose PC the pre-increment has put in 0x0002 to 0x1000. -/
theorem exec_keeps_inv (hinv : s.Inv) (hlo : 2 ≤ s.pc.toNat) (hhi : s.pc.toNat ≤ 0x1000) (h : exec i s = .next t) :
    t.Inv := by
  have skip (c : Bool) : (s.skipIf c).Inv :=
    hinv.of_kept (s.skipIf_mem c) (s.skipIf_sp c) (s.skipIf_stack c) (s.skipIf_halt c) (s.skipIf_fault c)
      (State.skipIf_pc_le hhi c)
  rcases exec_cases h with ⟨-, rfl⟩ | ⟨nnn, -, rfl⟩ | ⟨_, _, -, rfl⟩ | ⟨_, _, -, rfl⟩ | ⟨_, _, -, rfl⟩ |
    ⟨_, _, -, rfl⟩ | ⟨_, _, -, rfl⟩ | ⟨nnn, hlt, -, rfl⟩ | ⟨nnn, -, -, rfl⟩ | ⟨hlt, hpos, -, rfl⟩ | ⟨-, -, rfl⟩
  · exact hinv.of_kept rfl rfl rfl rfl rfl hinv.pc
  · exact hinv.of_kept rfl rfl rfl rfl rfl (zextAddr_le nnn)
  · exact skip _
  · exact skip _
  · exact skip _
  · exact hinv.of_kept rfl rfl rfl rfl rfl hinv.pc
  · exact hinv.of_kept rfl rfl rfl rfl rfl hinv.pc
  · exact hinv.push hlt hlo hhi nnn
  · exact hinv.raise ⟨rfl, State.instrAddr_le hlo hhi, nnn, rfl⟩
  · exact hinv.pop hlt hpos
  · exact hinv.raise ⟨rfl, State.instrAddr_le hlo hhi, rfl⟩

/-- Where a word is fetched, the pre-increment keeps the invariant and puts PC in 0x0002 to 0x1000 (R123). -/
theorem State.Inv.advancePc (hinv : s.Inv) (hw : s.AboutToRun w) :
    s.advancePc.Inv ∧ 2 ≤ s.advancePc.pc.toNat ∧ s.advancePc.pc.toNat ≤ 0x1000 := by
  obtain ⟨hadd, hle⟩ := pc_add_two_of_aboutToRun hw
  rw [State.advancePc_pc]
  exact ⟨hinv.of_kept rfl rfl rfl rfl rfl (hle.trans (by decide)), by omega, hle⟩

/-- Every Step keeps the invariant. -/
theorem step_keeps_inv (hinv : s.Inv) (h : step s = .next t) : t.Inv := by
  rcases step_cases h with ⟨-, rfl⟩ | ⟨-, hpc, rfl⟩ | ⟨w, hw, hd, rfl⟩ | ⟨w, i, hw, -, hexec⟩
  · exact hinv
  · exact hinv.raise ⟨rfl, hpc, rfl⟩
  · obtain ⟨hinv', hlo, hhi⟩ := hinv.advancePc hw
    exact hinv'.raise ⟨rfl, State.instrAddr_le hlo hhi, hd⟩
  · obtain ⟨hinv', hlo, hhi⟩ := hinv.advancePc hw
    exact exec_keeps_inv hinv' hlo hhi hexec

/-- Settles O47: `step_keeps_inv`. -/
theorem stepKeepsTheInvariant : Obligations.StepKeepsTheInvariant := fun _ _ => step_keeps_inv

/-! ## Host operations keep the invariant -/

/-- The state after Reset meets the invariant: memory and stack are empty. -/
theorem reset_inv : State.reset.Inv where
  memory := rfl
  pc := by decide
  sp := by decide
  stack := fun j hj => absurd hj (Nat.not_lt_zero j)
  fault := ⟨rfl, rfl, rfl⟩

/-- Settles O46: `reset_inv`. -/
theorem resetMeetsTheInvariant : Obligations.ResetMeetsTheInvariant := reset_inv

/-- A Load that succeeds writes MEM alone, in canonical form. -/
theorem loadWith_keeps_inv {g : GlyphTable} {bytes : List Byte} (hinv : s.Inv) (h : loadWith g bytes s = some t) :
    t.Inv := by
  obtain ⟨m, hm, hwf⟩ := loadWith_spec g hinv.memory (loadWith_cases h).1
  obtain rfl := Option.some.inj (hm.symm.trans h)
  exact ⟨hwf, hinv.pc, hinv.sp, hinv.stack, hinv.fault⟩

/-- Every host operation that is answered keeps the invariant. -/
theorem hostOp_keeps_inv {g : GlyphTable} {op : HostOp} {u u' : Session} {reply : Reply} (hinv : u.machine.Inv)
    (h : hostOp g op u = .next (u', reply)) : u'.machine.Inv := by
  rcases hostOp_cases h with ⟨-, rfl, -⟩ | ⟨_, _, -, -, hload, rfl, -⟩ | ⟨_, -, -, -, rfl, -⟩ | ⟨_, -, hstep, rfl, -⟩ |
    ⟨-, rfl, -⟩ | ⟨_, _, _, -, hkey, rfl, -⟩ | ⟨-, rfl, -⟩
  · exact reset_inv
  · exact loadWith_keeps_inv hinv hload
  · exact hinv
  · exact step_keeps_inv hinv hstep
  · have hpc : (tickTimer u.machine).pc.toNat ≤ 0x1002 := by rw [tickTimer_pc]; exact hinv.pc
    exact hinv.of_kept (tickTimer_mem _) (tickTimer_sp _) (tickTimer_stack _) (tickTimer_halt _) (tickTimer_fault _) hpc
  · obtain ⟨_, rfl⟩ := (setKey_eq_some u.machine).1 hkey
    exact hinv.of_kept rfl rfl rfl rfl rfl hinv.pc
  · exact hinv

/-- Settles O48: `hostOp_keeps_inv`. -/
theorem hostOperationsKeepTheInvariant : Obligations.HostOperationsKeepTheInvariant := fun _ _ _ _ _ => hostOp_keeps_inv

/-! ## DT 0 and the display off -/

theorem State.Quiet.of_kept (h : s.Quiet) (hdt : t.dt = s.dt) (hdisp : t.disp = s.disp) : t.Quiet where
  timer := hdt.trans h.timer
  display := by simpa only [State.pixel, hdisp] using h.display

theorem reset_quiet : State.reset.Quiet := ⟨rfl, Display.off_cell⟩

/-- A Step keeps DT, and writes DISP only to turn every cell off. -/
theorem step_keeps_quiet (hq : s.Quiet) (h : step s = .next t) : t.Quiet := by
  obtain hdisp | ⟨-, hoff⟩ := step_keeps_disp_or_clears h
  · exact hq.of_kept (step_keeps_dt h) hdisp
  · refine ⟨(step_keeps_dt h).trans hq.timer, fun y x => ?_⟩
    change t.disp[y.val][x.val] = false
    rw [hoff]
    exact Display.off_cell y x

/-- Every host operation that is answered keeps DT 0 and the display off: TickTimer stops at 0. -/
theorem hostOp_keeps_quiet {g : GlyphTable} {op : HostOp} {u u' : Session} {reply : Reply} (hq : u.machine.Quiet)
    (h : hostOp g op u = .next (u', reply)) : u'.machine.Quiet := by
  rcases hostOp_cases h with ⟨-, rfl, -⟩ | ⟨_, _, -, -, hload, rfl, -⟩ | ⟨_, -, -, -, rfl, -⟩ | ⟨_, -, hstep, rfl, -⟩ |
    ⟨-, rfl, -⟩ | ⟨_, _, _, -, hkey, rfl, -⟩ | ⟨-, rfl, -⟩
  · exact reset_quiet
  · obtain ⟨-, _, _, -, -, rfl⟩ := loadWith_cases hload
    exact hq.of_kept rfl rfl
  · exact hq
  · exact step_keeps_quiet hq hstep
  · have hsame : tickTimer u.machine = u.machine := if_pos hq.timer
    exact hsame.symm ▸ hq
  · obtain ⟨_, rfl⟩ := (setKey_eq_some u.machine).1 hkey
    exact hq.of_kept rfl rfl
  · exact hq

/-! ## Schedules -/

/-- On a machine that meets the invariant no host operation ends in a model fault: only a Step could, and it answers. -/
theorem hostOp_ne_fault (g : GlyphTable) (op : HostOp) {u : Session} (hinv : u.machine.Inv) (r : Fault) :
    hostOp g op u ≠ .fault r := by
  cases op with
  | reset => exact nofun
  | load bytes =>
    simp only [hostOp, hostLoad]
    split
    · exact nofun
    · exact nofun
    · split <;> exact nofun
  | step =>
    obtain ⟨t, hstep⟩ := step_answers hinv.sp
    simp only [hostOp, hostStep, hstep]
    exact nofun
  | tickTimer => exact nofun
  | setKey index pressed =>
    simp only [hostOp, hostSetKey]
    split <;> exact nofun
  | readDisplay => exact nofun

/-- A schedule that is answered: its first operation is, and the rest of it from the session that gives. -/
theorem hostRun_cons_cases {g : GlyphTable} {op : HostOp} {ops : List HostOp} {u u' : Session} {replies : List Reply}
    (h : hostRun g (op :: ops) u = .next (u', replies)) : ∃ v reply rest,
      hostOp g op u = .next (v, reply) ∧ hostRun g ops v = .next (u', rest) ∧ replies = reply :: rest := by
  unfold hostRun at h
  split at h
  case h_1 => exact nomatch h
  case h_2 => exact nomatch h
  case h_3 v reply hop =>
    split at h
    case h_1 u₁ rest hrest =>
      obtain ⟨rfl, rfl⟩ := Prod.mk.inj (Host.Outcome.next.inj h)
      exact ⟨v, reply, rest, hop, hrest, rfl⟩
    case h_2 => exact nomatch h
    case h_3 => exact nomatch h

/-- A schedule that ends in a model fault: its first operation does, or the rest of it. -/
theorem hostRun_cons_fault {g : GlyphTable} {op : HostOp} {ops : List HostOp} {u : Session} {r : Fault}
    (h : hostRun g (op :: ops) u = .fault r) : hostOp g op u = .fault r ∨
      ∃ v reply, hostOp g op u = .next (v, reply) ∧ hostRun g ops v = .fault r := by
  unfold hostRun at h
  split at h
  case h_1 hop =>
    obtain rfl := Host.Outcome.fault.inj h
    exact .inl hop
  case h_2 => exact nomatch h
  case h_3 v reply hop =>
    split at h
    case h_1 => exact nomatch h
    case h_2 hrest => exact .inr ⟨v, reply, hop, hrest.trans h⟩
    case h_3 => exact nomatch h

/-- A property of sessions that every host operation keeps holds of the session a schedule ends in. -/
theorem hostRun_keeps {g : GlyphTable} {P : Session → Prop}
    (hop : ∀ {op u u' reply}, P u → hostOp g op u = .next (u', reply) → P u') :
    ∀ {ops : List HostOp} {u u' : Session} {replies : List Reply}, P u → hostRun g ops u = .next (u', replies) → P u'
  | [], _, _, _, hu, h => (Prod.mk.inj (Host.Outcome.next.inj h)).1 ▸ hu
  | _ :: _, _, _, _, hu, h => by
    obtain ⟨v, _, _, hfirst, hrest, -⟩ := hostRun_cons_cases h
    exact hostRun_keeps hop (hop hu hfirst) hrest

/-- No schedule from a machine that meets the invariant ends in a model fault. -/
theorem hostRun_ne_fault (g : GlyphTable) :
    ∀ (ops : List HostOp) {u : Session}, u.machine.Inv → ∀ r : Fault, hostRun g ops u ≠ .fault r
  | [], _, _, _ => nofun
  | op :: ops, _, hinv, r => fun h => by
    obtain hfirst | ⟨v, _, hfirst, hrest⟩ := hostRun_cons_fault h
    · exact hostOp_ne_fault g op hinv r hfirst
    · exact hostRun_ne_fault g ops (hostOp_keeps_inv hinv hfirst) r hrest

/-- A schedule that is answered has one reply for each operation. -/
theorem hostRun_length {g : GlyphTable} : ∀ {ops : List HostOp} {u u' : Session} {replies : List Reply},
    hostRun g ops u = .next (u', replies) → replies.length = ops.length
  | [], _, _, _, h => (Prod.mk.inj (Host.Outcome.next.inj h)).2 ▸ rfl
  | _ :: _, _, _, _, h => by
    obtain ⟨_, _, _, -, hrest, rfl⟩ := hostRun_cons_cases h
    exact congrArg Nat.succ (hostRun_length hrest)

/-- Settles O49: the operations by `hostOp_keeps_inv`, `hostOp_keeps_quiet` and `hostOp_ne_fault`, the schedules by
induction over them from the session Reset gives. -/
theorem everyScheduleFromResetStaysSane : Obligations.EveryScheduleFromResetStaysSane := by
  refine ⟨fun g op u hinv hq => ⟨hostOp_ne_fault g op hinv, fun u' reply h => ?_⟩,
    fun g ops => ⟨hostRun_ne_fault g ops reset_inv, fun u replies h => ?_⟩⟩
  · exact ⟨hostOp_keeps_inv hinv h, hostOp_keeps_quiet hq h⟩
  · exact ⟨hostRun_keeps (P := fun v => v.machine.Inv) hostOp_keeps_inv reset_inv h,
      hostRun_keeps (P := fun v => v.machine.Quiet) hostOp_keeps_quiet reset_quiet h, hostRun_length h⟩

end Sys2Proof.Machine
end

section
/-! The control transfers and the skips as Steps (42_control_transfer.md, 43_conditional_skip.md): where each leaves PC,
SP and STACK, the jump to itself as the one fixed point of a running machine (R131), and CALL then RET (R153). -/

namespace Sys2Proof.Machine

variable {s t : State} {w a : Word} {i : Instr} {nnn : Addr}

/-! ## JP -/

/-- The Step on 1nnn puts PC at nnn, whatever the pre-increment had put there (R151). -/
theorem step_of_1nnn (hnum : w.toNat = 0x1000 + nnn.toNat) (hw : s.AboutToRun w) :
    step s = .next (s.setPc (zextAddr nnn)) :=
  (step_of_decoded hw (decode_of_1nnn hnum)).trans (exec_jp nnn)

/-- Settles O22: the handler's equation, and `step_of_1nnn`. -/
theorem jpSetsPcToTheAddress : Obligations.JpSetsPcToTheAddress :=
  fun nnn => ⟨fun _ => exec_jp nnn, fun _ _ hnum hw => ⟨_, step_of_1nnn hnum hw, zextAddr_toNat nnn, rfl⟩⟩

/-! ## The machine at rest -/

/-- An address inside MEM fits in nnn. -/
theorem zextAddr_setWidth (ha : a.toNat ≤ 0xFFE) : zextAddr (a.setWidth 12) = a := by
  apply BitVec.eq_of_toNat_eq
  rw [zextAddr_toNat, BitVec.toNat_setWidth]
  omega

/-- The word of a jump to an address inside MEM is 0x1000 plus that address. -/
theorem jp_word_toNat (ha : a.toNat ≤ 0xFFE) : (0x1000#16 + a).toNat = 0x1000 + a.toNat := by
  rw [BitVec.toNat_add]
  change (0x1000 + a.toNat) % 65536 = _
  omega

/-- A machine at rest runs its jump and is where it was (R131). -/
theorem step_of_atRest (h : s.AtRest a) : step s = .next s := by
  obtain ⟨hrun, rfl, hin, hfetch⟩ := h
  have hself : zextAddr (s.pc.setWidth 12) = s.pc := zextAddr_setWidth hin
  have hnum : (0x1000 + s.pc).toNat = 0x1000 + (s.pc.setWidth 12).toNat := by
    rw [← zextAddr_toNat, hself]
    exact jp_word_toNat hin
  rw [step_of_1nnn hnum (aboutToRun_iff.2 ⟨hrun, hfetch⟩), hself]
  rfl

/-- Settles O20, by induction on the number of Steps: the first gives back the state, and the rest starts there. -/
theorem machineAtRestStaysAtRest : Obligations.MachineAtRestStaysAtRest := by
  intro s a k hrest
  induction k with
  | zero => exact run_zero
  | succ k ih => exact (run_succ_of_next (step_of_atRest hrest)).trans ih

/-- A handler that undoes the pre-increment and changes nothing else is JP to the address of its own word: CLS, LD and
ADD leave PC at a + 2, a skip leaves it there or at a + 4, CALL and RET change SP, and a fault sets HALT. -/
theorem jp_of_exec_advancePc_eq (hrun : s.halt = false) (h : exec i s.advancePc = .next s) :
    ∃ nnn, i = .jp nnn ∧ s.pc = zextAddr nnn := by
  have moved : s.pc ≠ s.pc + 2 := by bv_omega
  have skipped (c : Bool) : s ≠ s.advancePc.skipIf c := fun e => by
    have hpc : s.pc = if c then s.pc + 2 + 2 else s.pc + 2 := (congrArg State.pc e).trans (s.advancePc.skipIf_pc c)
    split at hpc
    · bv_omega
    · exact moved hpc
  have halted {cause : Cause} {a w : Word} : s ≠ s.advancePc.raise cause a w := fun e =>
    absurd (hrun.symm.trans (congrArg State.halt e)) (by simp)
  rcases exec_cases h with ⟨-, e⟩ | ⟨nnn, rfl, e⟩ | ⟨_, _, -, e⟩ | ⟨_, _, -, e⟩ | ⟨_, _, -, e⟩ |
    ⟨_, _, -, e⟩ | ⟨_, _, -, e⟩ | ⟨_, _, -, e⟩ | ⟨_, -, -, e⟩ | ⟨_, hpos, -, e⟩ | ⟨-, -, e⟩
  · exact absurd (congrArg State.pc e) moved
  · exact ⟨nnn, rfl, congrArg State.pc e⟩
  · exact absurd e (skipped _)
  · exact absurd e (skipped _)
  · exact absurd e (skipped _)
  · exact absurd (congrArg State.pc e) moved
  · exact absurd (congrArg State.pc e) moved
  · have hsp : s.sp = s.sp + 1 := congrArg State.sp e
    bv_omega
  · exact absurd e halted
  · have hsp : s.sp = s.sp - 1 := congrArg State.sp e
    bv_omega
  · exact absurd e halted

/-- Settles O19: a fixed point of a running machine raised no fault, because that would set HALT, so it ran a handler
that undid the pre-increment, which is JP to its own address; the converse is `step_of_atRest`. -/
theorem selfJumpIsTheOnlyFixedPoint : Obligations.SelfJumpIsTheOnlyFixedPoint := by
  refine fun s => ⟨fun ⟨hrun, hstep⟩ => ?_, fun hrest => ⟨hrest.1, step_of_atRest hrest⟩⟩
  obtain ⟨-, w, i, hw, hd, hexec⟩ := step_runs_cases hstep hrun
  obtain ⟨nnn, rfl, hpc⟩ := jp_of_exec_advancePc_eq hrun hexec
  obtain ⟨-, hfetch⟩ := aboutToRun_iff.1 hw
  have hin : s.pc.toNat ≤ 0xFFE := (fetchWord_eq_some.1 hfetch).1
  have hword : w = 0x1000 + s.pc := by
    apply BitVec.eq_of_toNat_eq
    rw [decode_eq_some_iff.1 hd, encode_jp_toNat, ← zextAddr_toNat, ← hpc]
    exact (jp_word_toNat hin).symm
  exact ⟨hrun, rfl, hin, hword ▸ hfetch⟩

/-! ## CALL and RET -/

/-- The Step on a CALL with room on the stack: the return address pushed is a + 2 (R152). -/
theorem step_of_call_room (hw : s.AboutToRun w) (hd : decode w = some (.call nnn)) (hlt : s.sp.toNat < 16) :
    step s = .next { s with stack := s.stack.set s.sp.toNat (s.pc + 2) hlt, sp := s.sp + 1, pc := zextAddr nnn } :=
  (step_of_decoded hw hd).trans (exec_call_room (s := s.advancePc) nnn hlt)

/-- Settles O23: the handler's equation, and `step_of_call_room` read off entry by entry. -/
theorem callPushesTheReturnAddress : Obligations.CallPushesTheReturnAddress := by
  refine fun nnn => ⟨fun _ hlt => exec_call_room nnn hlt, fun s w hnum hw hlt => ?_⟩
  refine ⟨_, step_of_call_room hw (decode_of_2nnn hnum) hlt, zextAddr_toNat nnn, sp_add_one_toNat hlt, fun j => ?_, rfl⟩
  change ((s.stack.set s.sp.toNat (s.pc + 2) hlt)[j.val]).toNat =
    if j.val = s.sp.toNat then _ else (s.stack[j.val]).toNat
  rw [Vector.getElem_set]
  by_cases hj : j.val = s.sp.toNat
  · rw [if_pos hj.symm, if_pos hj]
    exact (pc_add_two_of_aboutToRun hw).1
  · rw [if_neg (Ne.symm hj), if_neg hj]

/-- The Step on a RET with an entry to pop (R150). -/
theorem step_of_ret_live (hw : s.AboutToRun 0x00EE) (hpos : 0 < s.sp.toNat) (hlt : s.sp.toNat - 1 < 16) :
    step s = .next { s with sp := s.sp - 1, pc := s.stack[s.sp.toNat - 1] } :=
  (step_of_decoded hw decode_ret_word).trans (exec_ret_live (s := s.advancePc) hpos hlt)

/-- Settles O24: the handler's equation, and `step_of_ret_live`. -/
theorem retPopsTheReturnAddress : Obligations.RetPopsTheReturnAddress :=
  ⟨fun _ hlt hpos => exec_ret_live hpos hlt,
    fun _ hlt hpos hw => ⟨_, step_of_ret_live hw hpos hlt, sp_sub_one_toNat hpos, rfl, rfl⟩⟩

/-- RET where the top entry is `ret` and SP one more than `sp`: the entry is popped, whatever lies below it. -/
theorem exec_ret_of_pushed {sp : Byte} {stack : Vector Word 16} {ret : Word} (hlt : sp.toNat < 16)
    (hsp : s.sp = sp + 1) (hstack : s.stack = stack.set sp.toNat ret hlt) :
    exec .ret s = .next { s with sp := sp, pc := ret } := by
  have hcount : s.sp.toNat = sp.toNat + 1 := hsp ▸ sp_add_one_toNat (s := s.setSp sp) hlt
  have hpos : 0 < s.sp.toNat := by omega
  have htop : s.sp.toNat - 1 < 16 := by omega
  have hentry : s.stack[s.sp.toNat - 1] = ret := by
    simp only [hstack, hcount, Nat.add_sub_cancel]
    exact Vector.getElem_set_self hlt
  have hback : s.sp - 1 = sp := hsp ▸ BitVec.add_sub_cancel sp 1
  rw [exec_ret_live hpos htop, hentry, hback]

/-- Settles O25: the entry that RET pops is the one the CALL wrote, a + 2, and SP counts back. -/
theorem callThenRetRoundTrip : Obligations.CallThenRetRoundTrip := by
  intro s nnn hlt hw hin hhi hlo
  have hcall := step_of_call_room hw (decode_encode _) hlt
  have hret : State.AboutToRun
      { s with stack := s.stack.set s.sp.toNat (s.pc + 2) hlt, sp := s.sp + 1, pc := zextAddr nnn } 0x00EE := by
    rw [← zextAddr_toNat nnn] at hin hhi hlo
    exact ⟨hw.1, hin, hhi.trans (by decide), hlo.trans (by decide)⟩
  have hback := (step_of_decoded hret decode_ret_word).trans (exec_ret_of_pushed hlt rfl rfl)
  exact ⟨_, ((run_succ_of_next hcall).trans (run_succ_of_next hback)).trans run_zero,
    (pc_add_two_of_aboutToRun hw).1, rfl, rfl, rfl⟩

/-- Settles O27: the equations of CALL and RET above SP = 16. -/
theorem callAndRetStopWhereNoStackEntryExists : Obligations.CallAndRetStopWhereNoStackEntryExists :=
  fun _ h => ⟨fun nnn => exec_call_none nnn h, exec_ret_none h⟩

/-! ## The skips -/

/-- A skip on a decided condition. -/
theorem State.skipIf_decide (s : State) (p : Prop) [Decidable p] :
    s.skipIf (decide p) = if p then { s with pc := s.pc + 2 } else s := by
  by_cases hp : p
  · rw [if_pos hp, decide_eq_true hp]; rfl
  · rw [if_neg hp, decide_eq_false hp]; rfl

/-- A Step that skips on a condition ends at a + 4 if it holds and at a + 2 if not, and changes PC alone. -/
theorem step_of_skip {p : Prop} [Decidable p] (hw : s.AboutToRun w)
    (h : step s = .next (s.advancePc.skipIf (decide p))) :
    ∃ t, step s = .next t ∧ t.pc.toNat = s.pc.toNat + (if p then 4 else 2) ∧ t = { s with pc := t.pc } := by
  refine ⟨_, h, ?_, ?_⟩
  · simpa only [decide_eq_true_eq] using skipIf_advancePc_pc hw (decide p)
  · cases decide p <;> rfl

/-- What SNE skips on, as a decided proposition (R171). -/
theorem not_bytesEqual_eq_decide (b c : Byte) : (!bytesEqual b c) = decide (¬ b = c) := decide_not.symm

/-- Settles O28: the comparator decides V[x] = kk. -/
theorem seImmediateSkipsIfEqual : Obligations.SeImmediateSkipsIfEqual :=
  fun x kk => ⟨fun s _ => (exec_seImm x kk).trans (congrArg _ (s.skipIf_decide (s.v[x] = kk))),
    fun s _ hnum hw => step_of_skip (p := s.v[x] = kk) hw (step_of_3xkk hnum hw)⟩

/-- Settles O29: the negated comparator decides V[x] ≠ kk. -/
theorem sneImmediateSkipsIfDifferent : Obligations.SneImmediateSkipsIfDifferent := by
  refine fun x kk => ⟨fun s _ => ?_, fun s w hnum hw => ?_⟩
  · rw [exec_sneImm, not_bytesEqual_eq_decide]
    exact congrArg _ (s.skipIf_decide (s.v[x] ≠ kk))
  · have hstep := step_of_4xkk hnum hw
    rw [not_bytesEqual_eq_decide] at hstep
    obtain ⟨t, ht, hpc, hframe⟩ := step_of_skip (p := ¬ s.v[x] = kk) hw hstep
    refine ⟨t, ht, hpc.trans ?_, hframe⟩
    by_cases heq : s.v[x] = kk <;> simp only [heq, not_true_eq_false, not_false_eq_true, if_true, if_false]

/-- Settles O30: the comparator decides V[x] = V[y]. -/
theorem seRegisterSkipsIfEqual : Obligations.SeRegisterSkipsIfEqual :=
  fun x y => ⟨fun s _ => (exec_seReg x y).trans (congrArg _ (s.skipIf_decide (s.v[x] = s.v[y]))),
    fun s _ hnum hw => step_of_skip (p := s.v[x] = s.v[y]) hw
      ((step_of_decoded hw (decode_of_5xy0 hnum)).trans (exec_seReg x y))⟩

end Sys2Proof.Machine
end

section
/-! The four faults and the halted machine (60_exceptions.md R251 to R259): the state each fault leaves, what cause a
Step that halts a running machine records, and what its driver is told. -/

namespace Sys2Proof.Machine

variable {s t : State} {w : Word} {nnn : Addr}

/-! ## The state after a fault -/

/-- Fault entry after the pre-increment records the address the Step began at, and leaves PC at a + 2 (R128). -/
theorem State.advancePc_raise (s : State) (cause : Cause) (w : Word) :
    s.advancePc.raise cause s.advancePc.instrAddr w =
      { s with pc := s.pc + 2, halt := true, fault := ⟨cause, s.pc, w⟩ } := by
  rw [s.advancePc_instrAddr]
  rfl

/-- The Step on a word that is no instruction (R252). -/
theorem step_of_unknown_eq (hw : s.AboutToRun w) (hd : decode w = none) :
    step s = .next { s with pc := s.pc + 2, halt := true, fault := ⟨.unknownOpcode, s.pc, w⟩ } :=
  (step_of_unknown hw hd).trans (congrArg _ (s.advancePc_raise .unknownOpcode w))

/-- The Step on a CALL with a full stack (R253). -/
theorem step_of_call_full (hw : s.AboutToRun (encode (.call nnn))) (hsp : s.sp = 16) :
    step s = .next { s with pc := s.pc + 2, halt := true, fault := ⟨.stackOverflow, s.pc, encode (.call nnn)⟩ } := by
  rw [step_of_decoded hw (decode_encode _), exec_call_full (s := s.advancePc) nnn hsp, s.advancePc_raise]

/-- The Step on a RET with an empty stack (R254). -/
theorem step_of_ret_empty (hw : s.AboutToRun 0x00EE) (hsp : s.sp = 0) :
    step s = .next { s with pc := s.pc + 2, halt := true, fault := ⟨.stackUnderflow, s.pc, 0x00EE⟩ } := by
  rw [step_of_decoded hw decode_ret_word, exec_ret_empty (s := s.advancePc) hsp, s.advancePc_raise]
  rfl

/-- The Step that begins above 0xFFE (R255). -/
theorem step_of_pc_gt (hrun : s.halt = false) (hpc : 0xFFE < s.pc.toNat) :
    step s = .next { s with halt := true, fault := ⟨.fetchOutOfRange, s.pc, 0x0000⟩ } :=
  step_of_fetch_none hrun (fetchWord_eq_none.2 hpc)

/-! ## The cause a Step records -/

/-- What a Step of a running machine finds where it raises the fault of a cause (R252 to R255). -/
def State.HaltsFor (s : State) : Cause → Prop
  | .none => False
  | .unknownOpcode => ∃ w, s.AboutToRun w ∧ decode w = none
  | .stackOverflow => (∃ nnn, s.AboutToRun (encode (.call nnn))) ∧ s.sp = 16
  | .stackUnderflow => s.AboutToRun 0x00EE ∧ s.sp = 0
  | .fetchOutOfRange => 0xFFE < s.pc.toNat

/-- A Step that halts a running machine found what the cause it records stands for. -/
theorem haltsFor_of_step_halts (hrun : s.halt = false) (h : step s = .next t) (hhalt : t.halt = true) :
    s.HaltsFor t.fault.cause := by
  rcases step_halts_cases hrun h hhalt with ⟨hpc, rfl⟩ | ⟨w, hw, hd, rfl⟩ | ⟨w, nnn, hw, hd, hsp, rfl⟩ |
    ⟨w, hw, hd, hsp, rfl⟩
  · exact hpc
  · exact ⟨w, hw, hd⟩
  · obtain rfl := decode_eq_some_iff.1 hd
    exact ⟨⟨nnn, hw⟩, hsp⟩
  · obtain rfl := decode_eq_some_iff.1 hd
    exact ⟨hw, hsp⟩

/-- A running machine that finds what a cause stands for records that cause. -/
theorem fault_cause_of_haltsFor {c : Cause} (hrun : s.halt = false) (h : step s = .next t) (hc : s.HaltsFor c) :
    t.fault.cause = c := by
  cases c with
  | none => exact hc.elim
  | unknownOpcode =>
    obtain ⟨w, hw, hd⟩ := hc
    obtain rfl := Host.Outcome.next.inj (h.symm.trans (step_of_unknown_eq hw hd))
    rfl
  | stackOverflow =>
    obtain ⟨⟨nnn, hw⟩, hsp⟩ := hc
    obtain rfl := Host.Outcome.next.inj (h.symm.trans (step_of_call_full hw hsp))
    rfl
  | stackUnderflow =>
    obtain ⟨hw, hsp⟩ := hc
    obtain rfl := Host.Outcome.next.inj (h.symm.trans (step_of_ret_empty hw hsp))
    rfl
  | fetchOutOfRange =>
    obtain rfl := Host.Outcome.next.inj (h.symm.trans (step_of_pc_gt hrun hc))
    rfl

/-- The cause that a Step which halts a running machine records, read both ways. -/
theorem fault_cause_eq_iff (c : Cause) (s t : State) (hrun : s.halt = false) (h : step s = .next t)
    (hhalt : t.halt = true) : t.fault.cause = c ↔ s.HaltsFor c :=
  ⟨fun hc => hc ▸ haltsFor_of_step_halts hrun h hhalt, fault_cause_of_haltsFor hrun h⟩

/-- Settles O40: the state after the fault, and its cause. -/
theorem unknownOpcodeHaltsTheMachine : Obligations.UnknownOpcodeHaltsTheMachine :=
  ⟨fun _ _ hw hd => ⟨(pc_add_two_of_aboutToRun hw).1, step_of_unknown_eq hw hd⟩, fault_cause_eq_iff .unknownOpcode⟩

/-- Settles O41: a word 2nnn is the CALL's own word; the state after the fault, and its cause. -/
theorem callOnFullStackHaltsTheMachine : Obligations.CallOnFullStackHaltsTheMachine := by
  refine ⟨fun nnn s w hnum hw hsp => ?_, fault_cause_eq_iff .stackOverflow⟩
  obtain rfl := decode_eq_some_iff.1 (decode_of_2nnn hnum)
  exact step_of_call_full hw hsp

/-- Settles O42: the state after the fault, and its cause. -/
theorem retOnEmptyStackHaltsTheMachine : Obligations.RetOnEmptyStackHaltsTheMachine :=
  ⟨fun _ => step_of_ret_empty, fault_cause_eq_iff .stackUnderflow⟩

/-- Settles O43: where fetch has no word, the state after the fault, and its cause. -/
theorem fetchBeyondMemoryHaltsTheMachine : Obligations.FetchBeyondMemoryHaltsTheMachine :=
  ⟨fun _ => fetchWord_eq_none, fun _ => step_of_pc_gt, fault_cause_eq_iff .fetchOutOfRange⟩

/-! ## What the driver is told -/

/-- A Step that answers is answered to the driver (R235). -/
theorem hostStep_of_next {u : Session} (h : step u.machine = .next t) :
    hostStep u = .next (⟨t, .running⟩, stepReply u.machine t) := by
  simp only [hostStep, h]

/-- The Step that raises a fault reports its record. -/
theorem stepReply_of_halting (hrun : s.halt = false) (hhalt : t.halt = true) : stepReply s t = .faulted t.fault := by
  simp only [stepReply, hrun, hhalt, Bool.not_false, Bool.and_self, if_true]

/-- Every other Step reports completion. -/
theorem stepReply_of_not_halting (h : s.halt = true ∨ t.halt = false) : stepReply s t = .done := by
  rcases h with h | h
  · simp only [stepReply, h, Bool.not_true, Bool.and_false, Bool.false_eq_true, if_false]
  · simp only [stepReply, h, Bool.false_and, Bool.false_eq_true, if_false]

/-- Settles O44: the reply is picked by HALT before and after. -/
theorem faultIsReportedToTheDriverOnce : Obligations.FaultIsReportedToTheDriverOnce := by
  refine fun u t hstep => ⟨fun ⟨hrun, hhalt⟩ => ?_, fun h => ?_⟩
  · rw [hostStep_of_next hstep, stepReply_of_halting hrun hhalt]
  · rw [hostStep_of_next hstep, stepReply_of_not_halting h]

/-- Settles O16: a halted machine answers itself, and its driver is told of completion. -/
theorem haltedStepChangesNothing : Obligations.HaltedStepChangesNothing := by
  refine fun u hhalt => ⟨step_of_halted hhalt, ?_⟩
  rw [hostStep_of_next (step_of_halted hhalt), stepReply_of_not_halting (.inl hhalt)]

end Sys2Proof.Machine
end

section
/-! Who reads and writes what (10_state.md R21, R37): the frame of each handler, and that a handler or host operation
does the same whatever the registers it does not select hold. -/

namespace Sys2Proof.Machine

variable {s t : State} {i : Instr}

/-! ## Frames -/

/-- LD and ADD write one register (R190, R191). -/
theorem exec_writes_one_register {x : Reg} {kk : Byte} (hi : i = .ldImm x kk ∨ i = .addImm x kk)
    (h : exec i s = .next t) : ∃ b, t = s.writeV x b := by
  obtain rfl | rfl := hi
  · exact ⟨_, (Host.Outcome.next.inj ((exec_ldImm x kk).symm.trans h)).symm⟩
  · exact ⟨_, (Host.Outcome.next.inj ((exec_addImm x kk).symm.trans h)).symm⟩

/-- Settles O36: LD and ADD are one `writeV`, which keeps everything but V[x]. -/
theorem frameOfLoadAndAdd : Obligations.FrameOfLoadAndAdd := by
  intro i x kk s t hi h
  obtain ⟨b, rfl⟩ := exec_writes_one_register hi h
  exact ⟨fun _ hr => s.readV_writeV_other hr b, rfl, rfl, rfl, rfl, rfl, rfl, rfl, rfl, rfl, fun _ => rfl⟩

/-- A skip writes PC and nothing else (R126). -/
theorem State.skipIf_eq_setPc (s : State) (c : Bool) : s.skipIf c = s.setPc (if c then s.pc + 2 else s.pc) := by
  cases c <;> rfl

/-- JP and the skips write PC and nothing else. -/
theorem exec_writes_pc_only (hi : (∃ nnn, i = .jp nnn) ∨ (∃ x kk, i = .seImm x kk) ∨ (∃ x kk, i = .sneImm x kk) ∨
    ∃ x y, i = .seReg x y) (h : exec i s = .next t) : ∃ p, t = s.setPc p := by
  have skip {c : Bool} (hc : Host.Outcome.next (s.skipIf c) = exec i s) : ∃ p, t = s.setPc p :=
    ⟨_, (Host.Outcome.next.inj (hc.trans h)).symm.trans (s.skipIf_eq_setPc c)⟩
  obtain ⟨nnn, rfl⟩ | ⟨x, kk, rfl⟩ | ⟨x, kk, rfl⟩ | ⟨x, y, rfl⟩ := hi
  · exact ⟨_, (Host.Outcome.next.inj ((exec_jp nnn).symm.trans h)).symm⟩
  · exact skip (exec_seImm x kk).symm
  · exact skip (exec_sneImm x kk).symm
  · exact skip (exec_seReg x y).symm

/-- Settles O37: JP and the skips are one `setPc`, which keeps everything but PC. -/
theorem frameOfJumpAndSkips : Obligations.FrameOfJumpAndSkips := by
  intro i s t hi h
  obtain ⟨p, rfl⟩ := exec_writes_pc_only hi h
  exact ⟨fun _ => rfl, rfl, rfl, rfl, rfl, rfl, rfl, rfl, rfl, fun _ => rfl⟩

/-- Settles O38: CLS is one `clearDisplay`, which keeps everything but DISP. -/
theorem frameOfCls : Obligations.FrameOfCls := by
  intro s t h
  obtain rfl := Host.Outcome.next.inj (exec_cls.symm.trans h)
  exact ⟨fun _ => rfl, rfl, rfl, rfl, rfl, rfl, rfl, rfl, rfl, fun _ => rfl⟩

/-- Everything RET can do when it answers: StackUnderflow on an empty stack, or a pop. -/
theorem exec_ret_cases (h : exec .ret s = .next t) :
    (s.sp = 0 ∧ t = s.raise .stackUnderflow s.instrAddr (encode .ret)) ∨
    (s.sp ≠ 0 ∧ ∃ sp pc, t = { s with sp := sp, pc := pc }) := by
  by_cases hempty : s.sp = 0
  · exact .inl ⟨hempty, (Host.Outcome.next.inj ((exec_ret_empty hempty).symm.trans h)).symm⟩
  · have hpos : 0 < s.sp.toNat := Nat.pos_of_ne_zero fun e => hempty (BitVec.eq_of_toNat_eq e)
    by_cases hlive : s.sp.toNat - 1 < 16
    · exact .inr ⟨hempty, _, _, (Host.Outcome.next.inj ((exec_ret_live hpos hlive).symm.trans h)).symm⟩
    · exact nomatch (exec_ret_none (by omega)).symm.trans h

/-- Everything CALL can do when it answers: StackOverflow on a full stack, or a push to entry SP. -/
theorem exec_call_cases {nnn : Addr} (h : exec (.call nnn) s = .next t) :
    (s.sp = 16 ∧ t = s.raise .stackOverflow s.instrAddr (encode (.call nnn))) ∨
    (s.sp ≠ 16 ∧ ∃ hlt : s.sp.toNat < 16, ∃ sp pc,
      t = { s with stack := s.stack.set s.sp.toNat s.pc hlt, sp := sp, pc := pc }) := by
  by_cases hfull : s.sp = 16
  · exact .inl ⟨hfull, (Host.Outcome.next.inj ((exec_call_full nnn hfull).symm.trans h)).symm⟩
  · by_cases hroom : s.sp.toNat < 16
    · exact .inr ⟨hfull, hroom, _, _, (Host.Outcome.next.inj ((exec_call_room nnn hroom).symm.trans h)).symm⟩
    · have hne : s.sp.toNat ≠ 16 := fun e => hfull (BitVec.eq_of_toNat_eq e)
      exact nomatch (exec_call_none nnn (by omega)).symm.trans h

/-- Settles O39: a fault of either writes HALT and FAULT alone, a pop SP and PC alone, a push entry SP, SP and PC. -/
theorem frameOfCallAndRet : Obligations.FrameOfCallAndRet := by
  rintro i s t (rfl | ⟨nnn, rfl⟩) h
  · obtain ⟨hsp, rfl⟩ | ⟨hsp, _, _, rfl⟩ := exec_ret_cases h
    · exact ⟨fun _ => rfl, rfl, rfl, rfl, rfl, fun _ => rfl, fun _ => rfl, fun _ _ => rfl, fun _ => ⟨rfl, rfl, rfl⟩,
        fun hno => absurd (.inl ⟨rfl, hsp⟩) hno⟩
    · exact ⟨fun _ => rfl, rfl, rfl, rfl, rfl, fun _ => rfl, fun _ => rfl, fun _ _ => rfl,
        fun hfault => hfault.elim (fun e => absurd e.2 hsp) (fun e => absurd rfl e.1), fun _ => ⟨rfl, rfl⟩⟩
  · obtain ⟨hsp, rfl⟩ | ⟨hsp, hlt, _, _, rfl⟩ := exec_call_cases h
    · exact ⟨fun _ => rfl, rfl, rfl, rfl, rfl, fun _ => rfl, fun _ => rfl, fun _ _ => rfl, fun _ => ⟨rfl, rfl, rfl⟩,
        fun hno => absurd (.inr ⟨nofun, hsp⟩) hno⟩
    · exact ⟨fun _ => rfl, rfl, rfl, rfl, rfl, fun _ => rfl, nofun,
        fun j hj => Vector.getElem_set_ne hlt j.isLt (Ne.symm hj),
        fun hfault => hfault.elim (fun e => nomatch e.1) (fun e => absurd e.2 hsp), fun _ => ⟨rfl, rfl⟩⟩

/-! ## The registers an instruction does not select -/

/-- The state with the general registers replaced, as a function of what they held. -/
def State.mapV (f : Vector Byte 16 → Vector Byte 16) (s : State) : State := { s with v := f s.v }

/-- A change of the registers that leaves V[x] alone and does not depend on it. -/
def SparesReg (f : Vector Byte 16 → Vector Byte 16) (x : Reg) : Prop :=
  ∀ v : Vector Byte 16, (f v)[x] = v[x] ∧ ∀ b, f (v.set x b) = (f v).set x b

/-- A write of another register leaves V[x] alone. -/
theorem sparesReg_set {r x : Reg} (b : Byte) (hne : x ≠ r) : SparesReg (fun v => v.set r b) x := by
  have hval : r.val ≠ x.val := fun e => hne (Fin.ext e.symm)
  exact fun v => ⟨Vector.getElem_set_ne r.isLt x.isLt hval, fun c => Vector.set_comm c b hval.symm⟩

section
variable {f : Vector Byte 16 → Vector Byte 16} {x : Reg}

theorem State.mapV_skipIf (s : State) (c : Bool) : (s.mapV f).skipIf c = (s.skipIf c).mapV f := by
  cases c <;> rfl

theorem SparesReg.readV_mapV (hx : SparesReg f x) (s : State) : (s.mapV f).readV x = s.readV x := (hx s.v).1

theorem SparesReg.writeV_mapV (hx : SparesReg f x) (s : State) (b : Byte) :
    (s.mapV f).writeV x b = (s.writeV x b).mapV f :=
  congrArg (fun v => ({ s with v := v } : State)) ((hx s.v).2 b).symm

/-- CALL and RET, in their cases by SP, commute with a change of the registers. -/
theorem exec_call_mapV (nnn : Addr) (s : State) :
    exec (.call nnn) (s.mapV f) = onNext (State.mapV f) (exec (.call nnn) s) := by
  rcases Nat.lt_trichotomy s.sp.toNat 16 with hroom | hfull | hnone
  · rw [exec_call_room nnn hroom, exec_call_room (s := s.mapV f) nnn hroom]
    rfl
  · have hsp : s.sp = 16 := BitVec.eq_of_toNat_eq hfull
    rw [exec_call_full nnn hsp, exec_call_full (s := s.mapV f) nnn hsp]
    rfl
  · rw [exec_call_none nnn hnone, exec_call_none (s := s.mapV f) nnn hnone]
    rfl

theorem exec_ret_mapV (s : State) : exec .ret (s.mapV f) = onNext (State.mapV f) (exec .ret s) := by
  rcases Nat.eq_zero_or_pos s.sp.toNat with hzero | hpos
  · have hsp : s.sp = 0 := BitVec.eq_of_toNat_eq hzero
    rw [exec_ret_empty hsp, exec_ret_empty (s := s.mapV f) hsp]
    rfl
  · rcases Nat.lt_or_ge 16 s.sp.toNat with hnone | hle
    · rw [exec_ret_none hnone, exec_ret_none (s := s.mapV f) hnone]
      rfl
    · have hlive : s.sp.toNat - 1 < 16 := by omega
      rw [exec_ret_live hpos hlive, exec_ret_live (s := s.mapV f) hpos hlive]
      rfl

/-- A handler does the same whatever the registers hold that its instruction does not select, and leaves them (R21). -/
theorem exec_mapV (i : Instr) (s : State) (hspares : ∀ x ∈ selectedRegs i, SparesReg f x) :
    exec i (s.mapV f) = onNext (State.mapV f) (exec i s) := by
  cases i with
  | cls => rfl
  | ret => exact exec_ret_mapV s
  | jp nnn => rfl
  | call nnn => exact exec_call_mapV nnn s
  | seImm x kk =>
    have hx : SparesReg f x := hspares x (.head _)
    rw [exec_seImm, exec_seImm, hx.readV_mapV, s.mapV_skipIf]
    rfl
  | sneImm x kk =>
    have hx : SparesReg f x := hspares x (.head _)
    rw [exec_sneImm, exec_sneImm, hx.readV_mapV, s.mapV_skipIf]
    rfl
  | seReg x y =>
    have hx : SparesReg f x := hspares x (.head _)
    have hy : SparesReg f y := hspares y (.tail _ (.head _))
    rw [exec_seReg, exec_seReg, hx.readV_mapV, hy.readV_mapV, s.mapV_skipIf]
    rfl
  | ldImm x kk =>
    have hx : SparesReg f x := hspares x (.head _)
    rw [exec_ldImm, exec_ldImm, hx.writeV_mapV]
    rfl
  | addImm x kk =>
    have hx : SparesReg f x := hspares x (.head _)
    rw [exec_addImm, exec_addImm, hx.readV_mapV, hx.writeV_mapV]
    rfl

/-- Load writes MEM only, and what it writes does not depend on the registers. -/
theorem loadWith_mapV (g : GlyphTable) (bytes : List Byte) (s : State) :
    loadWith g bytes (s.mapV f) = (loadWith g bytes s).map (State.mapV f) := by
  unfold loadWith
  split
  · rw [Option.map_map]
    rfl
  · rfl

/-- No host operation but Step and Reset reads or writes a general register. -/
theorem hostOp_mapV (g : GlyphTable) {op : HostOp} (u : Session) (hreset : op ≠ .reset) (hstep : op ≠ .step) :
    hostOp g op (u.onMachine (State.mapV f)) =
      onNext (fun p => (p.1.onMachine (State.mapV f), p.2)) (hostOp g op u) := by
  cases op with
  | reset => exact absurd rfl hreset
  | step => exact absurd rfl hstep
  | load bytes =>
    obtain ⟨m, phase⟩ := u
    cases phase with
    | running => rfl
    | loaded => rfl
    | fresh =>
      simp only [hostOp, hostLoad, Session.onMachine, loadWith_mapV]
      cases loadWith g bytes m <;> rfl
  | tickTimer =>
    have htick : tickTimer (u.machine.mapV f) = (tickTimer u.machine).mapV f := by rw [tickTimer_eq, tickTimer_eq]; rfl
    simp only [hostOp, Session.onMachine, htick, onNext]
  | setKey index pressed =>
    have hkey : setKey index pressed (u.machine.mapV f) = (setKey index pressed u.machine).map (State.mapV f) := by
      unfold setKey
      split <;> rfl
    simp only [hostOp, hostSetKey, Session.onMachine, hkey]
    cases setKey index pressed u.machine <;> rfl
  | readDisplay => rfl

end

/-- Settles O35: what LD and ADD change is `exec_changes_register`; a write of a register that is not selected, and any
change where none is, spares the selected ones; LD writes over what V[x] was. -/
theorem generalRegistersAreTouchedOnlyWhereSelected : Obligations.GeneralRegistersAreTouchedOnlyWhereSelected := by
  refine ⟨fun i s t r h hne => ?_, fun i s r b hr => ?_, fun i s v hnone => ?_, fun x kk s b => ?_,
    fun g op u v hreset hstep => hostOp_mapV (f := fun _ => v) g u hreset hstep⟩
  · obtain ⟨kk, hld, -⟩ | ⟨kk, hadd, -⟩ := exec_changes_register h hne
    · exact ⟨kk, .inl hld⟩
    · exact ⟨kk, .inr hadd⟩
  · exact exec_mapV (f := fun v => v.set r b) i s fun x hx => sparesReg_set b fun e => hr (e ▸ hx)
  · exact exec_mapV (f := fun _ => v) i s fun x hx => by simp [hnone] at hx
  · have hover : (s.v.set x b).set x kk = s.v.set x kk := Vector.set_set b x.isLt
    exact congrArg (fun v => Host.Outcome.next ({ s with v := v } : State)) hover

end Sys2Proof.Machine
end

section
/-! Memory and the host operations (20_memory.md R66, 47_host_operations.md R231 to R237, 70_reset_and_hazards.md R282):
the range-checked primitives, the placed word, Reset and the launch state, and what Load, TickTimer and SetKey
answer. -/

namespace Sys2Proof.Machine

variable {s t : State} {u v : Session}

/-! ## The memory primitives -/

theorem memWrite1_eq_none {m : Memory} {a : Nat} {b : Byte} : memWrite1 m a b = none ↔ 0xFFF < a := by
  simp [memWrite1]

theorem memWrite2_eq_none {m : Memory} {a : Nat} {w : Word} : memWrite2 m a w = none ↔ 0xFFF < a + 1 := by
  simp [memWrite2]

/-- The two cells of a stored word, and that no other cell changes. -/
theorem read_of_word_written {m : Memory} (hwf : m.wf = true) {a : Nat} (ha : a ≤ 0xFFE) (w : Word) :
    let m' := (m.write a (highByte w)).write (a + 1) (lowByte w)
    Memory.wf m' = true ∧ Memory.read m' a = highByte w ∧ Memory.read m' (a + 1) = lowByte w ∧
      ∀ b, b ≠ a → b ≠ a + 1 → Memory.read m' b = m.read b := by
  have hwf₁ : Memory.wf (m.write a (highByte w)) = true := Memory.write_wf _ (by omega) hwf
  refine ⟨Memory.write_wf _ (by omega) hwf₁, ?_, Memory.read_write_same _ hwf₁, fun b hb hb' => ?_⟩
  · rw [Memory.read_write_other _ (by omega), Memory.read_write_same _ hwf]
  · rw [Memory.read_write_other _ hb', Memory.read_write_other _ hb]

/-- Settles O3: each primitive answers on its range, and there is the cells' read, or one write, or two. -/
theorem memoryPrimitivesAreRangeChecked : Obligations.MemoryPrimitivesAreRangeChecked := by
  refine fun m hwf => ⟨fun a => rfl, fun a => ⟨?_, fun w hw => ?_⟩, fun a b => ⟨memWrite1_eq_none, fun m' hw => ?_⟩,
    fun a w => ⟨memWrite2_eq_none, fun m' hw => ?_⟩⟩
  · rw [memRead2_eq_none]
    omega
  · obtain ⟨-, rfl⟩ := memRead2_eq_some.1 hw
    exact joinBytes_toNat _ _
  · obtain ⟨ha, rfl⟩ := memWrite1_eq_some.1 hw
    exact ⟨memWrite1_wf hwf hw, memRead1_eq_some.2 ⟨ha, Memory.read_write_same b hwf⟩,
      fun c hc => Memory.read_write_other b hc m⟩
  · obtain ⟨ha, rfl⟩ := memWrite2_eq_some.1 hw
    obtain ⟨hwf', hhi, hlo, hframe⟩ := read_of_word_written hwf ha w
    exact ⟨hwf', memRead2_eq_some.2 ⟨ha, joinBytes_eq_iff.2 ⟨hhi, hlo⟩⟩,
      (congrArg BitVec.toNat hhi).trans (highByte_toNat w), (congrArg BitVec.toNat hlo).trans (lowByte_toNat w), hframe⟩

/-! ## The placed word -/

/-- Where `placeWord` puts a word is inside MEM, both its bytes. -/
theorem State.placeWord_pc_le (s : State) (w : Word) : (s.placeWord w).pc.toNat ≤ 0xFFE := by
  change (if s.pc.toNat ≤ 0xFFE then s.pc else Config.resetPc).toNat ≤ 0xFFE
  split
  · assumption
  · decide

/-- A row's word of 16 bits is placed as it is. -/
theorem State.withFetchWord_eq (s : State) (w : Word) : s.withFetchWord 16 w.toNat = s.placeWord w := by
  have hword : BitVec.ofNat 16 (w.toNat % 2 ^ 16) = w := by
    rw [Nat.mod_eq_of_lt w.isLt, BitVec.ofNat_toNat, BitVec.setWidth_eq]
  rw [State.withFetchWord, hword]

/-- Settles O15: the word is stored at the PC that `placeWord` leaves. -/
theorem placedWordIsFetchedNext : Obligations.PlacedWordIsFetchedNext := by
  intro s w hwf
  rw [s.withFetchWord_eq]
  obtain ⟨-, hhi, hlo, hframe⟩ := read_of_word_written hwf (s.placeWord_pc_le w) w
  exact ⟨⟨rfl, s.placeWord_pc_le w, hhi, hlo⟩, rfl, fun hpc => if_pos hpc, hframe⟩

/-! ## Reset and launch -/

/-- Settles O1: each field as `State.reset` states it, and the session of Reset. -/
theorem resetGivesEveryFieldItsValue : Obligations.ResetGivesEveryFieldItsValue := by
  have hv (r : Reg) : State.reset.v[r] = 0 := Vector.getElem_replicate r.isLt
  have hstack (j : Fin 16) : State.reset.stack[j] = 0 := Vector.getElem_replicate j.isLt
  have hkeys (k : Fin 16) : State.reset.keys[k] = false := Vector.getElem_replicate k.isLt
  exact ⟨fun _ => rfl, rfl, rfl, hv, rfl, hstack, rfl, hkeys, reset_quiet.display, rfl, rfl,
    fun _ _ => ⟨Session.reset, rfl, rfl, rfl⟩⟩

/-- A schedule whose first operation is answered goes on from the session that gives. -/
theorem hostRun_cons_of_next {g : GlyphTable} {op : HostOp} {ops : List HostOp} {reply : Reply} {replies : List Reply}
    {u' : Session} (h : hostOp g op u = .next (v, reply)) (hrest : hostRun g ops v = .next (u', replies)) :
    hostRun g (op :: ops) u = .next (u', reply :: replies) := by
  simp only [hostRun, h, hrest]

/-- Settles O2: `loadWith_reads` on the empty memory of the reset machine. -/
theorem launchStateIsDetermined : Obligations.LaunchStateIsDetermined := by
  intro g image hlen
  obtain ⟨m, hload, -, himage, htable, hframe⟩ := loadWith_reads (s := State.reset) g rfl hlen
  have hop : hostOp g (.load image) Session.reset = .next (⟨State.reset.withMem m, .loaded⟩, .done) :=
    hostOp_load_of_fresh rfl hload
  refine ⟨_, hostRun_cons_of_next rfl (hostRun_cons_of_next hop rfl), rfl, rfl, fun a ha => ?_, htable,
    fun a hlo hhi => ?_, himage, fun a ha => ?_⟩
  · exact hframe a (.inl ha) (.inl (by omega))
  · exact hframe a (.inr hlo) (.inl hhi)
  · exact hframe a (.inr (by omega)) (.inr ha)

/-! ## Load by phase (R233, R234) -/

/-- Settles O56: a fresh session hands LoadError on and keeps its state and phase. -/
theorem oversizedLoadChangesNothing : Obligations.OversizedLoadChangesNothing := by
  intro g bytes u hlong hfresh
  simp only [hostOp, hostLoad, hfresh, loadWith_eq_none_of_long g hlong]

/-- What an answered operation does to the phase, operation by operation. -/
theorem hostOp_phase {g : GlyphTable} {op : HostOp} {reply : Reply} (h : hostOp g op u = .next (v, reply)) :
    (op = .reset → v.phase = .fresh) ∧ (op = .step → v.phase = .running) ∧
    (∀ bytes, op = .load bytes → u.phase = .fresh ∧ (reply = .done → v.phase = .loaded) ∧ (reply ≠ .done → v = u)) ∧
    (op ≠ .reset → op ≠ .step → (∀ bytes, op ≠ .load bytes) → v.phase = u.phase) := by
  rcases hostOp_cases h with ⟨rfl, rfl, -⟩ | ⟨bytes, _, rfl, hfresh, -, rfl, rfl⟩ | ⟨bytes, rfl, hfresh, -, rfl, rfl⟩ |
    ⟨_, rfl, -, rfl, -⟩ | ⟨rfl, rfl, -⟩ | ⟨_, _, _, rfl, -, rfl, -⟩ | ⟨rfl, rfl, -⟩
  · exact ⟨fun _ => rfl, nofun, nofun, fun hne => absurd rfl hne⟩
  · exact ⟨nofun, nofun, fun _ _ => ⟨hfresh, fun _ => rfl, fun hne => absurd rfl hne⟩,
      fun _ _ hne => absurd rfl (hne bytes)⟩
  · exact ⟨nofun, nofun, fun _ _ => ⟨hfresh, nofun, fun _ => rfl⟩, fun _ _ _ => rfl⟩
  · exact ⟨nofun, fun _ => rfl, nofun, fun _ hne => absurd rfl hne⟩
  · exact ⟨nofun, nofun, nofun, fun _ _ _ => rfl⟩
  · exact ⟨nofun, nofun, nofun, fun _ _ _ => rfl⟩
  · exact ⟨nofun, nofun, nofun, fun _ _ _ => rfl⟩

/-- Once the session is not fresh, an answered operation other than Reset is no Load and leaves it not fresh. -/
theorem hostOp_of_not_fresh {g : GlyphTable} {op : HostOp} {reply : Reply} (h : hostOp g op u = .next (v, reply))
    (hphase : u.phase ≠ .fresh) (hreset : op ≠ .reset) : v.phase ≠ .fresh ∧ ∀ bytes, op ≠ .load bytes := by
  obtain ⟨-, hstep, hload, hother⟩ := hostOp_phase h
  have hnoload (bytes : List Byte) : op ≠ .load bytes := fun e => hphase (hload bytes e).1
  refine ⟨fun hfresh => ?_, hnoload⟩
  by_cases hop : op = .step
  · exact nomatch (hstep hop).symm.trans hfresh
  · exact hphase ((hother hreset hop hnoload).symm.trans hfresh)

/-- A schedule without Reset from a session that is not fresh: by induction, no operation of it is an answered Load. -/
theorem hostRun_of_not_fresh {g : GlyphTable} : ∀ {ops : List HostOp} {u u' : Session} {replies : List Reply},
    hostRun g ops u = .next (u', replies) → u.phase ≠ .fresh → HostOp.reset ∉ ops →
      u'.phase ≠ .fresh ∧ ∀ bytes, HostOp.load bytes ∉ ops
  | [], _, _, _, h, hphase, _ => ⟨(Prod.mk.inj (Host.Outcome.next.inj h)).1 ▸ hphase, fun _ => List.not_mem_nil⟩
  | op :: ops, _, _, _, h, hphase, hreset => by
    have hne : HostOp.reset ≠ op := List.ne_of_not_mem_cons hreset
    have hreset' : HostOp.reset ∉ ops := List.not_mem_of_not_mem_cons hreset
    obtain ⟨v, _, _, hop, hrest, -⟩ := hostRun_cons_cases h
    obtain ⟨hphase', hnoload⟩ := hostOp_of_not_fresh hop hphase hne.symm
    obtain ⟨hend, hnone⟩ := hostRun_of_not_fresh hrest hphase' hreset'
    exact ⟨hend, fun bytes => List.not_mem_cons_of_ne_of_not_mem (hnoload bytes).symm (hnone bytes)⟩

/-- Settles O57: the refusals of `hostLoad`, `hostOp_phase`, and the induction over the schedule. -/
theorem loadHappensOnceBeforeTheFirstStep : Obligations.LoadHappensOnceBeforeTheFirstStep := by
  refine ⟨fun g bytes u => ⟨fun hloaded => ?_, fun hrunning => ?_⟩, fun _ _ _ _ _ => hostOp_phase,
    fun _ _ _ _ _ => hostRun_of_not_fresh⟩
  · simp only [hostOp, hostLoad, hloaded]
  · simp only [hostOp, hostLoad, hrunning]

/-! ## TickTimer and SetKey (R236, R237) -/

/-- DT counts down and stops at 0. -/
theorem tickTimer_dt_toNat (s : State) : (tickTimer s).dt.toNat = s.dt.toNat - 1 := by
  rw [tickTimer_eq]
  change (if s.dt = 0 then 0 else s.dt - 1).toNat = _
  split
  case isTrue hzero =>
    rw [hzero]
    rfl
  case isFalse hne =>
    bv_omega

/-- Settles O58: TickTimer answers on every session, and writes DT alone. -/
theorem tickTimerCountsDownToZero : Obligations.TickTimerCountsDownToZero := by
  refine fun g u => ⟨tickTimer u.machine, rfl, tickTimer_dt_toNat u.machine, ?_⟩
  rw [tickTimer_eq]

/-- Settles O59: the two cases of `setKey` by its index, and the written flag read back. -/
theorem setKeySetsOneFlag : Obligations.SetKeySetsOneFlag := by
  refine fun g u pressed => ⟨fun index => ?_, fun index hge => ?_⟩
  · have hset : setKey index.val pressed u.machine =
        some { u.machine with keys := u.machine.keys.set index.val pressed index.isLt } := dif_pos index.isLt
    refine ⟨{ u.machine with keys := u.machine.keys.set index.val pressed index.isLt }, ?_, fun k => ?_, rfl⟩
    · simp only [hostOp, hostSetKey, hset]
    · change (u.machine.keys.set index.val pressed index.isLt)[k.val] =
        if k = index then pressed else u.machine.keys[k.val]
      rw [Vector.getElem_set]
      simp only [Fin.ext_iff, eq_comm]
  · have hnone : setKey index pressed u.machine = none := dif_neg (Nat.not_lt.2 hge)
    simp only [hostOp, hostSetKey, hnone]

end Sys2Proof.Machine
end
